-- ==== Sys2Proof/Word.lean ====
section
/-!
DEFINITION. The machine word (20_memory.md R51, 00_scope.md R6, R7) and the three parameter modes (00_scope.md R11,
30_encoding.md R84). A word is 64 bits, read as a two's-complement signed integer by `BitVec.toInt`; there is no
narrower or wider unit of storage and no byte view (20_memory.md R57).
-/

namespace Sys2Proof

/-- One memory cell, queue entry, operand or result: 64 bits, signed (R6 `WORD_BITS`, R51). -/
abbrev Word := BitVec 64

/-- `WORD_MIN` (R6). -/
def wordMin : Int := -9223372036854775808

/-- `WORD_MAX` (R6). -/
def wordMax : Int := 9223372036854775807

/-- The exact integer `v` is a `Word` (R7). -/
abbrev InWord (v : Int) : Prop := wordMin ≤ v ∧ v ≤ wordMax

/-- How a raw parameter word is interpreted (R11, R84): its address, its value, or an offset from the relative base. -/
inductive Mode where
  | position
  | immediate
  | relative
  deriving DecidableEq, Repr

end Sys2Proof
end

