-- ==== Sys2Proof/Config.lean ====
section
/-!
DEFINITION. The configuration parameters the spec leaves open (00_scope.md R6): the memory capacity and the meaning of
the optional fixed input value. The spec calls them parameters of the step (10_state.md R20); they are held as a field
of State so that a claim holds for every value of them (91_not_in_source.md N10). DESIGN CHOICE, log entry 1. Safe.
The spec leaves no value undefined, so there is no free value here.
-/

namespace Sys2Proof

/-- `FIXED_INPUT_POLICY` (R6, 70_reset_and_hazards.md R251): a fixed input value is queued once at construction, or is
what every Input receives. -/
inductive FixedInputPolicy where
  | once
  | always
  deriving DecidableEq, Repr

/-- What is fixed for one machine (R6). -/
structure Config where
  /-- `MEM_CAPACITY`: addresses `0 .. memCapacity - 1` exist (R6, 20_memory.md R50). -/
  memCapacity : Nat
  /-- `FIXED_INPUT_POLICY` (R6). -/
  fixedInputPolicy : FixedInputPolicy
  /-- The optional fixed input value given at construction (R251). -/
  fixedInput : Option Word
  deriving DecidableEq, Repr

/-- The largest capacity the parameter admits, and the default: `2^63` (R6). -/
def maxCapacity : Nat := 9223372036854775808

/-- The defaults of R6: capacity `2^63`, policy `once`, no fixed input value. -/
def Config.default : Config :=
  { memCapacity := maxCapacity, fixedInputPolicy := .once, fixedInput := none }

end Sys2Proof
end

