-- ==== Sys2Proof/Machine/Cause.lean ====
section
/-!
DEFINITION. The seven fault causes with the information each records (60_exceptions.md R200 to R207), and their numeric
codes, names and classes.
-/

namespace Sys2Proof

/-- A fault cause together with its recorded information (R200). -/
inductive Cause where
  /-- The fetched word is negative or its two low digits name no instruction; records the word (R201). -/
  | invalidOpcode (w : Word)
  /-- Mode digit `k` is `d`, not 0, 1 or 2; or `k = 4` and `d` is the number above the ten-thousands digit (R202). -/
  | invalidParameterMode (k d : Nat)
  /-- The write parameter, at position `k`, has mode digit 1 (R203). -/
  | immediateWriteTarget (k : Nat)
  /-- An access at, or a taken jump to, the negative address `a` (R204). -/
  | negativeAddress (a : Int)
  /-- An access at the address `a`, at or above the capacity (R205). -/
  | addressBeyondCapacity (a : Int)
  /-- The exact result `v` of ADD, MUL or ARB is no `Word` (R206). -/
  | arithmeticOverflow (v : Int)
  /-- The host popped an empty output queue (R207). -/
  | queueUnderflow
  deriving DecidableEq, Repr

/-- The classes of the source's taxonomy (R200). -/
inductive FaultClass where
  | decodeError
  | addressError
  | arithmeticOverflow
  | queueUnderflow
  deriving DecidableEq, Repr

/-- The `info` field of a fault record (R200, last column). -/
inductive FaultInfo where
  | word (w : Word)
  | modeDigit (k d : Nat)
  | parameter (k : Nat)
  | exact (v : Int)
  | none
  deriving DecidableEq, Repr

namespace Machine

/-- The numeric fault code (R200). -/
def causeCode : Cause → Nat
  | .invalidOpcode _ => 1
  | .invalidParameterMode _ _ => 2
  | .immediateWriteTarget _ => 3
  | .negativeAddress _ => 4
  | .addressBeyondCapacity _ => 5
  | .arithmeticOverflow _ => 6
  | .queueUnderflow => 7

/-- The fault's name (R200). -/
def causeName : Cause → String
  | .invalidOpcode _ => "InvalidOpcode"
  | .invalidParameterMode _ _ => "InvalidParameterMode"
  | .immediateWriteTarget _ => "ImmediateWriteTarget"
  | .negativeAddress _ => "NegativeAddress"
  | .addressBeyondCapacity _ => "AddressBeyondCapacity"
  | .arithmeticOverflow _ => "ArithmeticOverflow"
  | .queueUnderflow => "QueueUnderflow"

/-- The fault's class (R200). -/
def causeClass : Cause → FaultClass
  | .invalidOpcode _ => .decodeError
  | .invalidParameterMode _ _ => .decodeError
  | .immediateWriteTarget _ => .decodeError
  | .negativeAddress _ => .addressError
  | .addressBeyondCapacity _ => .addressError
  | .arithmeticOverflow _ => .arithmeticOverflow
  | .queueUnderflow => .queueUnderflow

/-- The recorded information (R200). -/
def causeInfo : Cause → FaultInfo
  | .invalidOpcode w => .word w
  | .invalidParameterMode k d => .modeDigit k d
  | .immediateWriteTarget k => .parameter k
  | .negativeAddress a => .exact a
  | .addressBeyondCapacity a => .exact a
  | .arithmeticOverflow v => .exact v
  | .queueUnderflow => .none

end Machine

end Sys2Proof
end

