-- ==== Sys2Proof/Machine/State.lean ====
section
/-!
DEFINITION. The state of one core (10_state.md R20 to R36), the reasons a step can stop, and the state after reset.
-/

namespace Sys2Proof.Machine

/-- Memory (10_state.md R25): (address, word) pairs in one canonical form, addresses strictly rising and no listed word
0, which is what an unlisted address reads as (20_memory.md R61). There is no byte view (R57). DESIGN CHOICE, log entry 2.
Safe. -/
abbrev Memory := List (Nat × Word)

/-- The canonical form. -/
abbrev Memory.wf (m : Memory) : Prop :=
  m.Pairwise (fun c d => c.1 < d.1) ∧ ∀ c ∈ m, c.2 ≠ 0

/-- The run state (10_state.md R29). -/
inductive Status where
  | runnable
  | halted
  | faulted
  deriving DecidableEq, Repr

/-- Whether an instruction or a host operation raised a fault (10_state.md R30). -/
inductive Origin where
  | core
  | host
  deriving DecidableEq, Repr

/-- The fault record (10_state.md R30). Its `code`, `name` and `info` are `causeCode`, `causeName` and `causeInfo` of
the cause, so they are stored once. DESIGN CHOICE, log entry 4. Safe. -/
structure FaultRecord where
  cause : Cause
  origin : Origin
  pc : Nat
  deriving DecidableEq, Repr

/-- The complete architectural state of one instance (10_state.md R20), with the configuration it was constructed
under. -/
structure State where
  /-- The configuration parameters (00_scope.md R6). No operation changes them. -/
  cfg : Config
  /-- Memory (R25). -/
  mem : Memory
  /-- The extent: the current length of memory (R26). -/
  ext : Nat
  /-- The program counter (R22). -/
  pc : Nat
  /-- The relative base (R24). -/
  rb : Word
  /-- The input queue, oldest value first (R27). -/
  inq : List Word
  /-- The output queue, oldest value first (R28). -/
  outq : List Word
  /-- The run state (R29). -/
  status : Status
  /-- The fault record (R30). -/
  fault : Option FaultRecord
  deriving DecidableEq, Repr

/-- Why a step is not defined (40_execution_cycle.md R121). The spec's own faults are no reason here: they are taken as
a next state (R129). DESIGN CHOICE, log entry 8. Safe. -/
inductive Fault where
  /-- Raised by `step` alone, in a Halted state: "in `Halted` or `Faulted` the core has no step" (R121). Safe. -/
  | haltedHasNoStep
  /-- Raised by `step` alone, in a Faulted state (R121, 60_exceptions.md R210). Safe. -/
  | faultedHasNoStep
  deriving DecidableEq, Repr

/-- Why an instruction has no meaning here. -/
inductive Refusal where
  /-- Raised by an arm of `exec` whose instruction is not modelled yet. No arm raises it. Safe. -/
  | notModelled (mnemonic : String)
  deriving DecidableEq, Repr

/-- The state right after construction from the empty program under the default parameters (10_state.md R35,
70_reset_and_hazards.md R250, 00_scope.md R6). A program is loaded by construction, from outside: log entry 3. -/
def State.reset : State :=
  { cfg := Config.default, mem := [], ext := 0, pc := 0, rb := 0, inq := [], outq := [],
    status := .runnable, fault := none }

end Sys2Proof.Machine
end

