-- ==== Sys2Proof/Machine/Ops.lean ====
section
/-!
DEFINITION. The named operations every instruction is built from: memory, the extent, the checked arithmetic, the
program counter's advance, and taking a fault (20_memory.md, 41_arithmetic.md R150, 40_execution_cycle.md R127 to R129).
-/

namespace Sys2Proof.Machine

/-- What an operation inside a step gives: a value and the state reached, or a raised fault and the state reached
(00_scope.md R9 `raise`). The state of a raise differs from the one before by growth of the extent only (R127). -/
inductive Res (α : Type) where
  | ok (a : α) (s : State)
  | raise (c : Cause) (s : State)
  deriving Repr

/-- Do the next operation unless a fault was raised: the first fault ends the step (R126). -/
def andThen {α β : Type} (r : Res α) (f : α → State → Res β) : Res β :=
  match r with
  | .ok a s => f a s
  | .raise c s => .raise c s

/-- The word at an address; an unlisted address reads 0 (10_state.md R25). -/
def memGet : Memory → Nat → Word
  | [], _ => 0
  | (b, v) :: m, a => if a = b then v else memGet m a

/-- Write one word, keeping the canonical form: a 0 is not listed. -/
def memSet : Memory → Nat → Word → Memory
  | [], a, v => if v = 0 then [] else [(a, v)]
  | (b, u) :: m, a, v =>
    if a < b then (if v = 0 then (b, u) :: m else (a, v) :: (b, u) :: m)
    else if a = b then (if v = 0 then m else (a, v) :: m)
    else (b, u) :: memSet m a v

/-- Zero-fill growth up to and including address `a` (10_state.md R26, 20_memory.md R53). -/
def grow (a : Nat) (s : State) : State :=
  if s.ext ≤ a then { s with ext := a + 1 } else s

/-- The address check on an exact integer (20_memory.md R52). -/
def checkAddr (capacity : Nat) (a : Int) : Except Cause Nat :=
  if a < 0 then .error (.negativeAddress a)
  else if (capacity : Int) ≤ a then .error (.addressBeyondCapacity a)
  else .ok a.toNat

/-- `MemRead(a, 1)` (20_memory.md R53). -/
def memRead (a : Int) (s : State) : Res Word :=
  match checkAddr s.cfg.memCapacity a with
  | .error c => .raise c s
  | .ok n => .ok (memGet s.mem n) (grow n s)

/-- The write of a word at an address already checked (20_memory.md R54; the commit of R126 cannot fault). -/
def store (a : Nat) (v : Word) (s : State) : State :=
  { grow a s with mem := memSet s.mem a v }

/-- `MemWrite(a, 1, v)` (20_memory.md R54). -/
def memWrite (a : Int) (v : Word) (s : State) : Res Unit :=
  match checkAddr s.cfg.memCapacity a with
  | .error c => .raise c s
  | .ok n => .ok () (store n v s)

/-- `Peek(a)`: the read that neither grows memory nor faults (20_memory.md R56). -/
def peek (a : Nat) (s : State) : Word := if a < s.ext then memGet s.mem a else 0

/-- `checked64(v)`: the exact result as a word, or ArithmeticOverflow (00_scope.md R9, 41_arithmetic.md R150). -/
def checked64 (v : Int) (s : State) : Res Word :=
  if v < wordMin ∨ wordMax < v then .raise (.arithmeticOverflow v) s
  else .ok (BitVec.ofInt 64 v) s

/-- The program-counter update of an instruction that is no taken jump, `n` words long (40_execution_cycle.md R128).
It is computed from the old `pc` register. -/
def advance (n : Nat) (s : State) : State := { s with pc := s.pc + n }

/-- Taking a fault, raised by an instruction or a host operation (40_execution_cycle.md R129, 60_exceptions.md R209):
the status and the record are written and nothing else changes. There is no vector, handler or saved context, and no
return from a fault (R209, R210), so no return operation stands beside this one. -/
def takeFault (origin : Origin) (c : Cause) (s : State) : State :=
  { s with status := .faulted, fault := some { cause := c, origin := origin, pc := s.pc } }

/-- The end of an instruction: its committed state, or the fault it raised, taken (R126, R129). -/
def finish (r : Res Unit) : Host.Outcome State Fault Refusal :=
  match r with
  | .ok _ s => .next s
  | .raise c s => .next (takeFault .core c s)

end Sys2Proof.Machine
end

