-- ==== Sys2Proof/Machine/Operands.lean ====
section
/-!
DEFINITION. Operand resolution: the raw parameter fetch and the three modes for a read and for a write (20_memory.md R63
to R70), and the operand shapes that several instructions share.
-/

namespace Sys2Proof.Machine

/-- The effective address of a raw word under a mode, exact and unwrapped (20_memory.md R64, R66 to R68, R70);
immediate mode has none (R65). -/
def effAddr (m : Mode) (raw rb : Word) : Option Int :=
  match m with
  | .position => some raw.toInt
  | .immediate => none
  | .relative => some (raw.toInt + rb.toInt)

/-- `raw_k`: the k-th parameter word, read literally from the instruction stream (20_memory.md R63). -/
def fetchRaw (k : Nat) (s : State) : Res Word := memRead ((s.pc : Int) + k) s

/-- `resolve_read(m, raw)` (20_memory.md R64 to R66). -/
def resolveRead (m : Mode) (raw : Word) (s : State) : Res Word :=
  match effAddr m raw s.rb with
  | none => .ok raw s
  | some a => memRead a s

/-- `resolve_write_address(m, raw)` for parameter `k` (20_memory.md R67, R68). Immediate mode is rejected by the decoder
and never comes here (R69); should it, it raises the decoder's own fault. DESIGN CHOICE, log entry 5. Safe. -/
def resolveWrite (k : Nat) (m : Mode) (raw : Word) (s : State) : Res Nat :=
  match effAddr m raw s.rb with
  | none => .raise (.immediateWriteTarget k) s
  | some a =>
    match checkAddr s.cfg.memCapacity a with
    | .error c => .raise c s
    | .ok n => .ok n s

/-- Fetch and resolve read parameter `k` (40_execution_cycle.md R126 step 1). -/
def readParam (k : Nat) (m : Mode) (s : State) : Res Word :=
  andThen (fetchRaw k s) fun raw s1 => resolveRead m raw s1

/-- Fetch and resolve write parameter `k` (40_execution_cycle.md R126 step 2). -/
def writeParam (k : Nat) (m : Mode) (s : State) : Res Nat :=
  andThen (fetchRaw k s) fun raw s1 => resolveWrite k m raw s1

/-- Format F3: two read parameters, a write parameter, the result `f` computes (and may raise), one write (30_encoding.md
R90, 40_execution_cycle.md R126). -/
def threeOperand (f : Word → Word → State → Res Word) (m1 m2 m3 : Mode) (s : State) :
    Host.Outcome State Fault Refusal :=
  finish <|
    andThen (readParam 1 m1 s) fun v1 s1 =>
    andThen (readParam 2 m2 s1) fun v2 s2 =>
    andThen (writeParam 3 m3 s2) fun d s3 =>
    andThen (f v1 v2 s3) fun r s4 =>
    .ok () (advance 4 (store d r s4))

/-- Format F1R: one read parameter, then what `f` does with its value (30_encoding.md R90, 40_execution_cycle.md R126). -/
def oneOperand (f : Word → State → Res Unit) (m1 : Mode) (s : State) : Host.Outcome State Fault Refusal :=
  finish <|
    andThen (readParam 1 m1 s) fun v1 s1 =>
    andThen (f v1 s1) fun _ s2 =>
    .ok () (advance 2 s2)

/-- Format F2R: the condition and the target are both resolved whether or not the jump is taken (43_jumps.md R170,
R171); a taken jump to a negative target raises NegativeAddress (R172). -/
def conditionalJump (taken : Word → Bool) (m1 m2 : Mode) (s : State) :
    Host.Outcome State Fault Refusal :=
  finish <|
    andThen (readParam 1 m1 s) fun v1 s1 =>
    andThen (readParam 2 m2 s1) fun t s2 =>
    if taken v1 then
      if t.toInt < 0 then .raise (.negativeAddress t.toInt) s2
      else .ok () { s2 with pc := t.toInt.toNat }
    else .ok () (advance 3 s2)

end Sys2Proof.Machine
end

