-- ==== Sys2Proof/Machine/Arithmetic.lean ====
section
/-!
DEFINITION. ADD and MUL (41_arithmetic.md).
-/

namespace Sys2Proof.Machine

/-- ADD (R151): the exact signed sum, checked. -/
def execAdd (m1 m2 m3 : Mode) (s : State) : Host.Outcome State Fault Refusal :=
  threeOperand (fun v1 v2 => checked64 (v1.toInt + v2.toInt)) m1 m2 m3 s

/-- MUL (R152): the exact signed product, checked. -/
def execMul (m1 m2 m3 : Mode) (s : State) : Host.Outcome State Fault Refusal :=
  threeOperand (fun v1 v2 => checked64 (v1.toInt * v2.toInt)) m1 m2 m3 s

end Sys2Proof.Machine
end

