-- ==== Sys2Proof/Machine/BaseHalt.lean ====
section
/-!
DEFINITION. ARB and HALT (45_relbase_halt.md).
-/

namespace Sys2Proof.Machine

/-- ARB (R190): a relative-mode operand uses the old base; the new base is checked. -/
def execAdjustBase (m1 : Mode) (s : State) : Host.Outcome State Fault Refusal :=
  oneOperand (fun v1 s1 => andThen (checked64 (s1.rb.toInt + v1.toInt) s1) fun r s2 => .ok () { s2 with rb := r }) m1 s

/-- HALT (R191): no parameter is fetched; `pc` follows the general rule, and no claim rests on it
(93_implementation_defined.md I9). DESIGN CHOICE, log entry 12. Safe. -/
def execHalt (s : State) : Host.Outcome State Fault Refusal :=
  .next (advance 1 { s with status := .halted })

end Sys2Proof.Machine
end

