-- ==== Sys2Proof/Machine/Flags.lean ====
section
/-!
DEFINITION. The machine has no flags and no condition codes (10_state.md R32). What stands in their place: the word a
comparison writes (44_compare.md R182) and the tests a conditional jump makes of a word (43_jumps.md R170, R171).
-/

namespace Sys2Proof.Machine

/-- The word 1 for true, 0 for false (R182). -/
def boolWord (b : Bool) : Word := if b then 1 else 0

/-- JT's condition: any non-zero word, negative ones included (R170). -/
def wordIsNonZero (v : Word) : Bool := v != 0

/-- JF's condition: only the word 0 (R171). -/
def wordIsZero (v : Word) : Bool := v == 0

end Sys2Proof.Machine
end

