-- ==== Sys2Proof/Machine/Compare.lean ====
section
/-!
DEFINITION. LT and EQ (44_compare.md). A comparison cannot overflow.
-/

namespace Sys2Proof.Machine

/-- LT (R180): the signed comparison. -/
def execLessThan (m1 m2 m3 : Mode) (s : State) : Host.Outcome State Fault Refusal :=
  threeOperand (fun v1 v2 s3 => .ok (boolWord (v1.toInt < v2.toInt)) s3) m1 m2 m3 s

/-- EQ (R181). -/
def execEquals (m1 m2 m3 : Mode) (s : State) : Host.Outcome State Fault Refusal :=
  threeOperand (fun v1 v2 s3 => .ok (boolWord (v1.toInt = v2.toInt)) s3) m1 m2 m3 s

end Sys2Proof.Machine
end

