-- ==== Sys2Proof/Machine/InOut.lean ====
section
/-!
DEFINITION. IN and OUT (42_io.md, 40_execution_cycle.md R125, 70_reset_and_hazards.md R251).
-/

namespace Sys2Proof.Machine

/-- The value every Input receives under the policy `always`, if one was given at construction (R251). With none given,
the policy acts as the plain queue: DEDUCED, log entry 7. Unsafe. -/
def alwaysInput (cfg : Config) : Option Word :=
  match cfg.fixedInputPolicy with
  | .once => none
  | .always => cfg.fixedInput

/-- The value the next IN receives and the input queue left after it: the fixed value under `always`, which leaves the
queue alone (R251); else the oldest queued value (R160, R162); none on an empty queue (R125). -/
def nextInput (s : State) : Option (Word × List Word) :=
  match alwaysInput s.cfg with
  | some v => some (v, s.inq)
  | none =>
    match s.inq with
    | [] => none
    | v :: q => some (v, q)

/-- IN (R160). With no input available the step is Blocked: nothing changes and `pc` stays at the instruction (R125).
The value is popped only after the destination is resolved, so a faulting IN consumes nothing. -/
def execInput (m1 : Mode) (s : State) : Host.Outcome State Fault Refusal :=
  match nextInput s with
  | none => .next s
  | some (v, q) =>
    finish <|
      andThen (writeParam 1 m1 s) fun d s1 =>
      .ok () (advance 2 (store d v { s1 with inq := q }))

/-- OUT (R161): the operand is appended at the back of the output queue. -/
def execOutput (m1 : Mode) (s : State) : Host.Outcome State Fault Refusal :=
  oneOperand (fun v1 s1 => .ok () { s1 with outq := s1.outq ++ [v1] }) m1 s

end Sys2Proof.Machine
end

