-- ==== Sys2Proof/Machine/Jumps.lean ====
section
/-!
DEFINITION. JT and JF (43_jumps.md).
-/

namespace Sys2Proof.Machine

/-- JT (R170). -/
def execJumpIfTrue (m1 m2 : Mode) (s : State) : Host.Outcome State Fault Refusal :=
  conditionalJump wordIsNonZero m1 m2 s

/-- JF (R171). -/
def execJumpIfFalse (m1 m2 : Mode) (s : State) : Host.Outcome State Fault Refusal :=
  conditionalJump wordIsZero m1 m2 s

end Sys2Proof.Machine
end

