-- ==== Sys2Proof/Syntax.lean ====
section
/-!
DEFINITION. The instructions: one constructor per row of spec/opcode_table.json (30_encoding.md R89). Each carries the
three mode digits of its instruction word, first parameter first, those of parameters the instruction does not have
included, since the decoder returns all three (R87, R92). The parameter words are not part of the instruction: they are
fetched from memory while it executes (20_memory.md R63, 40_execution_cycle.md R126).
-/

namespace Sys2Proof

/-- The ten instructions (00_scope.md R2). -/
inductive Instr where
  /-- ADD, opcode 1 (41_arithmetic.md R151). -/
  | add (m1 m2 m3 : Mode)
  /-- MUL, opcode 2 (41_arithmetic.md R152). -/
  | mul (m1 m2 m3 : Mode)
  /-- IN, opcode 3 (42_io.md R160). -/
  | input (m1 m2 m3 : Mode)
  /-- OUT, opcode 4 (42_io.md R161). -/
  | output (m1 m2 m3 : Mode)
  /-- JT, opcode 5 (43_jumps.md R170). -/
  | jumpIfTrue (m1 m2 m3 : Mode)
  /-- JF, opcode 6 (43_jumps.md R171). -/
  | jumpIfFalse (m1 m2 m3 : Mode)
  /-- LT, opcode 7 (44_compare.md R180). -/
  | lessThan (m1 m2 m3 : Mode)
  /-- EQ, opcode 8 (44_compare.md R181). -/
  | equals (m1 m2 m3 : Mode)
  /-- ARB, opcode 9 (45_relbase_halt.md R190). -/
  | adjustBase (m1 m2 m3 : Mode)
  /-- HALT, opcode 99 (45_relbase_halt.md R191). -/
  | halt (m1 m2 m3 : Mode)
  deriving DecidableEq, Repr

end Sys2Proof
end

