-- ==== Sys2Proof/WellFormed.lean ====
section
/-!
DEFINITION. Which instructions the decoder can produce: the write parameter is never in immediate mode (30_encoding.md
R86, R90; 20_memory.md R69). Mode digits of absent parameters are free (R92).
-/

namespace Sys2Proof

/-- The legal modes of R90: `m3` of format F3 and `m1` of format F1W are position or relative. -/
def Instr.wellFormed : Instr → Bool
  | .add _ _ m3 => m3 != .immediate
  | .mul _ _ m3 => m3 != .immediate
  | .input m1 _ _ => m1 != .immediate
  | .output _ _ _ => true
  | .jumpIfTrue _ _ _ => true
  | .jumpIfFalse _ _ _ => true
  | .lessThan _ _ m3 => m3 != .immediate
  | .equals _ _ m3 => m3 != .immediate
  | .adjustBase _ _ _ => true
  | .halt _ _ _ => true

end Sys2Proof
end

