-- ==== Sys2Proof/Decode.lean ====
section
/-!
DEFINITION. The decoder (30_encoding.md R80 to R95) and the encoder written from the same tables. An instruction word is
a decimal-packed value: `CBAOO` with `OO` the opcode and `A`, `B`, `C` the modes of parameters 1, 2, 3 (R81).
-/

namespace Sys2Proof

/-- `dec(w, k)`: the k-th decimal digit, digit 0 the units (00_scope.md R8). -/
def dec (w k : Nat) : Nat := w / 10 ^ k % 10

/-- The mode a digit names, if it is one of 0, 1, 2 (R84). -/
def modeOfDigit : Nat → Option Mode
  | 0 => some .position
  | 1 => some .immediate
  | 2 => some .relative
  | _ => none

/-- The digit of a mode (R84). -/
def digitOfMode : Mode → Nat
  | .position => 0
  | .immediate => 1
  | .relative => 2

/-- The mode of parameter `k` (1 to 3), from digit `k + 1` of the word (R81, R84). -/
def modeAt (w k : Nat) : Except Cause Mode :=
  match modeOfDigit (dec w (k + 1)) with
  | some m => .ok m
  | none => .error (.invalidParameterMode k (dec w (k + 1)))

/-- The opcode map (R89, R95): which instruction the two low digits name. -/
def instrOfOpcode : Nat → Option (Mode → Mode → Mode → Instr)
  | 1 => some .add
  | 2 => some .mul
  | 3 => some .input
  | 4 => some .output
  | 5 => some .jumpIfTrue
  | 6 => some .jumpIfFalse
  | 7 => some .lessThan
  | 8 => some .equals
  | 9 => some .adjustBase
  | 99 => some .halt
  | _ => none

/-- An instruction's opcode (R89). -/
def opcodeOf : Instr → Nat
  | .add _ _ _ => 1
  | .mul _ _ _ => 2
  | .input _ _ _ => 3
  | .output _ _ _ => 4
  | .jumpIfTrue _ _ _ => 5
  | .jumpIfFalse _ _ _ => 6
  | .lessThan _ _ _ => 7
  | .equals _ _ _ => 8
  | .adjustBase _ _ _ => 9
  | .halt _ _ _ => 99

/-- The three mode digits of an instruction, first parameter first (R81). -/
def modesOf : Instr → Mode × Mode × Mode
  | .add m1 m2 m3 => (m1, m2, m3)
  | .mul m1 m2 m3 => (m1, m2, m3)
  | .input m1 m2 m3 => (m1, m2, m3)
  | .output m1 m2 m3 => (m1, m2, m3)
  | .jumpIfTrue m1 m2 m3 => (m1, m2, m3)
  | .jumpIfFalse m1 m2 m3 => (m1, m2, m3)
  | .lessThan m1 m2 m3 => (m1, m2, m3)
  | .equals m1 m2 m3 => (m1, m2, m3)
  | .adjustBase m1 m2 m3 => (m1, m2, m3)
  | .halt m1 m2 m3 => (m1, m2, m3)

/-- The number `n` of parameter words (R89). -/
def operandCount : Instr → Nat
  | .add _ _ _ => 3
  | .mul _ _ _ => 3
  | .input _ _ _ => 1
  | .output _ _ _ => 1
  | .jumpIfTrue _ _ _ => 2
  | .jumpIfFalse _ _ _ => 2
  | .lessThan _ _ _ => 3
  | .equals _ _ _ => 3
  | .adjustBase _ _ _ => 1
  | .halt _ _ _ => 0

/-- The length in words, `1 + n`; modes never change it (R89, R93). -/
def instrLength (i : Instr) : Nat := 1 + operandCount i

/-- The position and the mode of the write parameter, if the instruction has one (R86). -/
def writeParameter : Instr → Option (Nat × Mode)
  | .add _ _ m3 => some (3, m3)
  | .mul _ _ m3 => some (3, m3)
  | .input m1 _ _ => some (1, m1)
  | .output _ _ _ => none
  | .jumpIfTrue _ _ _ => none
  | .jumpIfFalse _ _ _ => none
  | .lessThan _ _ m3 => some (3, m3)
  | .equals _ _ m3 => some (3, m3)
  | .adjustBase _ _ _ => none
  | .halt _ _ _ => none

/-- The last check of R87: an immediate-mode write target is refused (R86). -/
def checkWriteTarget (i : Instr) : Except Cause Instr :=
  match writeParameter i with
  | some (k, .immediate) => .error (.immediateWriteTarget k)
  | _ => .ok i

/-- The checks of R87 from the modes on, for a word `w` whose opcode names the constructor `mk`. -/
def decodeModes (mk : Mode → Mode → Mode → Instr) (w : Nat) : Except Cause Instr :=
  match modeAt w 1 with
  | .error c => .error c
  | .ok m1 =>
    match modeAt w 2 with
    | .error c => .error c
    | .ok m2 =>
      match modeAt w 3 with
      | .error c => .error c
      | .ok m3 =>
        if 100000 ≤ w then .error (.invalidParameterMode 4 (w / 100000))
        else checkWriteTarget (mk m1 m2 m3)

/-- The complete decoder, in the check order of R87; the first failing check is reported. Pure (R88). -/
def decode (w : Word) : Except Cause Instr :=
  if w.toInt < 0 then .error (.invalidOpcode w)
  else
    match instrOfOpcode (w.toNat % 100) with
    | none => .error (.invalidOpcode w)
    | some mk => decodeModes mk w.toNat

/-- The decimal value of an instruction word (R81). -/
def encodeNat (i : Instr) : Nat :=
  match modesOf i with
  | (m1, m2, m3) => opcodeOf i + 100 * digitOfMode m1 + 1000 * digitOfMode m2 + 10000 * digitOfMode m3

/-- The instruction word of an instruction (R81). -/
def encode (i : Instr) : Word := BitVec.ofNat 64 (encodeNat i)

/-- Word `k` of an instruction given as one number, bit 0 the least significant bit of word 0, the bits at and above
`nbits` zero. -/
def tableWord (nbits w k : Nat) : Word := BitVec.ofNat 64 ((w % 2 ^ nbits) / 2 ^ (64 * k))

/-- The instruction the decoder reads from a number in the opcode table's bit numbering: the words are 64 bits wide, so
the instruction word is word 0. -/
def decodeTableWord (nbits w : Nat) : Option Instr :=
  match decode (tableWord nbits w 0) with
  | .ok i => some i
  | .error _ => none

end Sys2Proof
end

