-- ==== Sys2Proof/Machine/Fetch.lean ====
section
/-!
DEFINITION. Fetching and decoding the instruction at the program counter (40_execution_cycle.md R123, R124), and placing
words in memory as construction or the host does.
-/

namespace Sys2Proof.Machine

/-- Read the word at `pc` and decode it; either may raise (R123, R124). Decoding changes nothing (30_encoding.md R88). -/
def fetchInstr (s : State) : Res Instr :=
  andThen (memRead s.pc s) fun w s1 =>
    match decode w with
    | .ok i => .ok i s1
    | .error c => .raise c s1

/-- Place words from address `a` on, as part of the memory sequence; an address at or above the capacity is left out. -/
def placeWords (a : Nat) (ws : List Word) (s : State) : State :=
  match ws with
  | [] => s
  | v :: vs => placeWords (a + 1) vs (if a < s.cfg.memCapacity then store a v s else s)

end Sys2Proof.Machine
end

