-- ==== Sys2Proof/Machine/Step.lean ====
section
/-!
DEFINITION. One step of the core (40_execution_cycle.md R121, R122), and placing an instruction where the next step
fetches it.
-/

namespace Sys2Proof.Machine

/-- The step (R122). Outside Runnable there is none (R121). A fault of the fetch or the decoder is taken (R129). -/
def step (s : State) : Host.Outcome State Fault Refusal :=
  match s.status with
  | .halted => .fault .haltedHasNoStep
  | .faulted => .fault .faultedHasNoStep
  | .runnable =>
    match fetchInstr s with
    | .ok i s1 => exec i s1
    | .raise c s1 => .next (takeFault .core c s1)

/-- `s` with the instruction of `decodeTableWord nbits w`, its instruction word and three parameter words, at `pc`. -/
def State.withFetchWord (s : State) (nbits w : Nat) : State :=
  placeWords s.pc [tableWord nbits w 0, tableWord nbits w 1, tableWord nbits w 2, tableWord nbits w 3] s

end Sys2Proof.Machine
end

