-- ==== Sys2Proof/Machine/Assembly.lean ====
section
/-!
DEFINITION. The spec's assembly notation and its two pseudo-instructions (30_encoding.md R96, R97). It is listing
shorthand: no rule of the machine depends on it.
-/

namespace Sys2Proof.Machine

/-- An operand as written: its mode and its raw word (R96). -/
structure Operand where
  mode : Mode
  raw : Word
  deriving DecidableEq, Repr

/-- `[x]` (R96). -/
def posOp (x : Word) : Operand := { mode := .position, raw := x }

/-- `#x` (R96). -/
def immOp (x : Word) : Operand := { mode := .immediate, raw := x }

/-- `[rb+x]` (R96). -/
def relOp (x : Word) : Operand := { mode := .relative, raw := x }

/-- The mode of the k-th operand (0-based); an absent one has mode digit 0 (R96). -/
def operandMode : List Operand → Nat → Mode
  | [], _ => .position
  | o :: _, 0 => o.mode
  | _ :: os, k + 1 => operandMode os k

/-- The words of an instruction: its instruction word, then one word per operand (R96). A wrong number of operands, or
an immediate write target, assembles to nothing (R89, R86). -/
def assemble (mk : Mode → Mode → Mode → Instr) (operands : List Operand) : Option (List Word) :=
  let i := mk (operandMode operands 0) (operandMode operands 1) (operandMode operands 2)
  if operands.length = operandCount i ∧ i.wellFormed = true then
    some (encode i :: operands.map (fun o => o.raw))
  else none

/-- `.word v` (R96). -/
def assembleWord (v : Word) : List Word := [v]

/-- `JMP t` = `JT #1, t` (R97). -/
def assembleJmp (t : Operand) : Option (List Word) := assemble .jumpIfTrue [immOp 1, t]

/-- `MOV s, d` = `ADD s, #0, d` (R97). -/
def assembleMov (src dst : Operand) : Option (List Word) := assemble .add [src, immOp 0, dst]

/-- The mnemonic of an instruction (R89). -/
def mnemonicOf : Instr → String
  | .add _ _ _ => "ADD"
  | .mul _ _ _ => "MUL"
  | .input _ _ _ => "IN"
  | .output _ _ _ => "OUT"
  | .jumpIfTrue _ _ _ => "JT"
  | .jumpIfFalse _ _ _ => "JF"
  | .lessThan _ _ _ => "LT"
  | .equals _ _ _ => "EQ"
  | .adjustBase _ _ _ => "ARB"
  | .halt _ _ _ => "HALT"

/-- An operand's text (R96). -/
def operandText (o : Operand) : String :=
  match o.mode with
  | .position => "[" ++ toString o.raw.toInt ++ "]"
  | .immediate => "#" ++ toString o.raw.toInt
  | .relative =>
    if o.raw.toInt < 0 then "[rb-" ++ toString (-o.raw.toInt) ++ "]"
    else "[rb+" ++ toString o.raw.toInt ++ "]"

/-- The text of an instruction: `MNEMONIC op1, op2, op3` (R96). -/
def instrText (i : Instr) (operands : List Operand) : String :=
  match operands with
  | [] => mnemonicOf i
  | os => mnemonicOf i ++ " " ++ String.intercalate ", " (os.map operandText)

end Sys2Proof.Machine
end

