-- ==== Sys2Proof/Machine/Loader.lean ====
section
/-!
DEFINITION. The program text format and its loader (30_encoding.md R98, R99). The loader is outside the core (00_scope.md
R5); it turns one line of text into the program that construction takes.
-/

namespace Sys2Proof.Machine

/-- The line without its one optional final LF or CRLF (R99). -/
def dropLineEnd : List Char → List Char
  | [] => []
  | ['\n'] => []
  | ['\r', '\n'] => []
  | c :: cs => c :: dropLineEnd cs

/-- The items between commas (R98). -/
def splitAtCommas : List Char → List (List Char)
  | [] => [[]]
  | c :: cs =>
    if c = ',' then [] :: splitAtCommas cs
    else
      match splitAtCommas cs with
      | [] => [[c]]
      | item :: items => (c :: item) :: items

/-- The value of a character that is a decimal digit. -/
def digitValue (c : Char) : Option Nat :=
  if 48 ≤ c.toNat ∧ c.toNat ≤ 57 then some (c.toNat - 48) else none

/-- The value of a run of digits, `acc` the value of those before it. -/
def digitsValue (acc : Nat) : List Char → Option Nat
  | [] => some acc
  | c :: cs =>
    match digitValue c with
    | none => none
    | some d => digitsValue (10 * acc + d) cs

/-- One or more digits (R99 `[0-9]+`). -/
def naturalItem (cs : List Char) : Option Nat :=
  match cs with
  | [] => none
  | c :: rest => digitsValue 0 (c :: rest)

/-- The exact value of an item `-?[0-9]+` (R99). -/
def itemValue (cs : List Char) : Option Int :=
  match cs with
  | '-' :: rest => (naturalItem rest).map fun (n : Nat) => -(n : Int)
  | cs => (naturalItem cs).map fun (n : Nat) => (n : Int)

/-- An item as a word; a value outside `Word` is refused (R99). -/
def itemWord (cs : List Char) : Option Word :=
  match itemValue cs with
  | none => none
  | some v => if InWord v then some (BitVec.ofInt 64 v) else none

/-- Every item, or a refusal of the whole line (R99). -/
def itemWords : List (List Char) → Option (List Word)
  | [] => some []
  | cs :: items =>
    match itemWord cs, itemWords items with
    | some w, some ws => some (w :: ws)
    | _, _ => none

/-- One line of program text to its program; `none` where the loader refuses the line (R98, R99). DESIGN CHOICE, log entry
11. Safe. -/
def loadLine (line : List Char) : Option (List Word) :=
  match dropLineEnd line with
  | [] => some []
  | cs => itemWords (splitAtCommas cs)

end Sys2Proof.Machine
end

