-- ==== Sys2Proof/Machine/Construct.lean ====
section
/-!
DEFINITION. Construction of an instance from a program (70_reset_and_hazards.md R250 to R252). It is the only reset
(R253). `State.reset` is the construction from the empty program under the default parameters.
-/

namespace Sys2Proof.Machine

/-- The memory cells of a program placed from address `a` on, in the canonical form (10_state.md R25, R61). -/
def programCells (a : Nat) : List Word → Memory
  | [] => []
  | v :: vs => if v = 0 then programCells (a + 1) vs else (a, v) :: programCells (a + 1) vs

/-- The input queue at construction: a fixed input value is queued once under the policy `once`; otherwise the queue is
empty (R251). -/
def initialInput (cfg : Config) : List Word :=
  match cfg.fixedInputPolicy with
  | .once => cfg.fixedInput.toList
  | .always => []

/-- `new(initial_memory)` (R250), with the optional fixed input value in the configuration (R251). A program longer than
the capacity gives no instance (R252), nor does a capacity above `2^63`, which is no value of the parameter (00_scope.md
R6). -/
def construct (cfg : Config) (program : List Word) : Option State :=
  if program.length ≤ cfg.memCapacity ∧ cfg.memCapacity ≤ maxCapacity then
    some { cfg := cfg, mem := programCells 0 program, ext := program.length, pc := 0, rb := 0,
           inq := initialInput cfg, outq := [], status := .runnable, fault := none }
  else none

end Sys2Proof.Machine
end

