-- ==== Sys2Proof/Machine/HostPort.lean ====
section
/-!
DEFINITION. The host port (60_exceptions.md R215 to R227) and the run loop (40_execution_cycle.md R130 to R134). Each
operation is atomic and happens only between runs (R215), so each is one function on State; which one a host performs,
and when, is free. Construction is in Machine/Construct.lean.
-/

namespace Sys2Proof.Machine

/-- What a host operation returns: its value, or the fault (R209, R226). -/
inductive Reply (α : Type) where
  | value (a : α)
  | fault (f : Option FaultRecord)
  deriving DecidableEq, Repr

/-- The four outcomes of a step (40_execution_cycle.md R121). -/
inductive StepResult where
  | stepped
  | halted
  | blocked
  | faulted (f : Option FaultRecord)
  deriving DecidableEq, Repr

/-- What `run()` returns (40_execution_cycle.md R130). `outOfFuel` is no end of a run: the bound was reached (R133). -/
inductive RunResult where
  | halted
  | blockedOnInput
  | faulted (f : Option FaultRecord)
  | outOfFuel
  deriving DecidableEq, Repr

/-- A mutating operation is refused on a Faulted instance, which it leaves as it is (R216, R226). -/
def unlessFaulted {α : Type} (s : State) (op : State → Reply α × State) : Reply α × State :=
  match s.status with
  | .runnable => op s
  | .halted => op s
  | .faulted => (.fault s.fault, s)

/-- The reply of a host operation; a fault it raises is taken with origin Host and returned (R209). -/
def hostReply {α : Type} (r : Res α) : Reply α × State :=
  match r with
  | .ok a s => (.value a, s)
  | .raise c s => (.fault (takeFault .host c s).fault, takeFault .host c s)

/-- `push_input(v)`: append at the back of the input queue (R217). -/
def pushInput (v : Word) (s : State) : Reply Unit × State :=
  unlessFaulted s fun s => (.value (), { s with inq := s.inq ++ [v] })

/-- `pop_output()`: remove and return the oldest output; QueueUnderflow on an empty queue (R218). -/
def popOutput (s : State) : Reply Word × State :=
  unlessFaulted s fun s =>
    match s.outq with
    | [] => hostReply (.raise .queueUnderflow s)
    | v :: q => (.value v, { s with outq := q })

/-- `has_output()` (R219). -/
def hasOutput (s : State) : Bool := !s.outq.isEmpty

/-- `IsInputAt(s)`: the word at `pc`, read by `Peek`, decodes without fault to opcode 3 (10_state.md R31). -/
def isInputAt (s : State) : Bool :=
  match decode (peek s.pc s) with
  | .ok i => opcodeOf i == 3
  | .error _ => false

/-- BlockedOnInput (10_state.md R31): Runnable, the word at `pc` an Input, the input queue empty. The formula looks at the
queue alone under either policy; that the step does not block under `always` with a fixed value (R251) leaves it as it
is: DEDUCED, log entry 6. Unsafe. -/
def blockedOnInput (s : State) : Bool :=
  s.status == .runnable && isInputAt s && s.inq.isEmpty

/-- `needs_input()` (R220). -/
def needsInput (s : State) : Bool := blockedOnInput s

/-- `is_halted()` (R221). -/
def isHalted (s : State) : Bool := s.status == .halted

/-- `get_memory(a)`: a growing read (R222). -/
def getMemory (a : Word) (s : State) : Reply Word × State :=
  unlessFaulted s fun s => hostReply (memRead a.toInt s)

/-- `set_memory(a, v)` (R223). -/
def setMemory (a v : Word) (s : State) : Reply Unit × State :=
  unlessFaulted s fun s => hostReply (memWrite a.toInt v s)

/-- `duplicate()`: the original and an equal, independent instance (R225, 10_state.md R36). One State is one instance:
DESIGN CHOICE, log entry 10. Safe. -/
def duplicate (s : State) : State × State := (s, s)

/-- `fault()` (R227). -/
def faultQuery (s : State) : Option FaultRecord := s.fault

/-- The step at `s` is Blocked: the fetch and the decoder succeed, the opcode is 3 and no input is available
(40_execution_cycle.md R125). Under `always` with a fixed value an input is always available (70_reset_and_hazards.md
R251): DEDUCED, log entry 6. Unsafe. -/
def stepBlocks (s : State) : Bool :=
  match fetchInstr s with
  | .ok i s1 => opcodeOf i == 3 && (nextInput s1).isNone
  | .raise _ _ => false

/-- The step with its outcome named (40_execution_cycle.md R121, R122); none where the core has no step. -/
def coreStep (s : State) : Option (StepResult × State) :=
  match step s with
  | .next t =>
    if stepBlocks s then some (.blocked, t)
    else
      match t.status with
      | .runnable => some (.stepped, t)
      | .halted => some (.halted, t)
      | .faulted => some (.faulted t.fault, t)
  | .fault _ => none
  | .refused _ => none

/-- What `run()` returns without a step (40_execution_cycle.md R130, R131). -/
def restResult (s : State) : RunResult :=
  match s.status with
  | .runnable => .outOfFuel
  | .halted => .halted
  | .faulted => .faulted s.fault

/-- `run()` under a bound on the number of steps (40_execution_cycle.md R130, R133), which counts every attempt of a step.
DESIGN CHOICE, log entry 9. Safe. -/
def run : Nat → State → RunResult × State
  | 0, s => (restResult s, s)
  | n + 1, s =>
    match coreStep s with
    | none => (restResult s, s)
    | some (.stepped, t) => run n t
    | some (.halted, t) => (.halted, t)
    | some (.blocked, t) => (.blockedOnInput, t)
    | some (.faulted f, t) => (.faulted f, t)

end Sys2Proof.Machine
end

