-- ==== Sys2Proof/Safety.lean ====
section
/-!
DEFINITION. The terms in which claims are stated: what an instruction's operands are in the state it starts from, the
first fault they raise, how far they grow memory, the invariant that every step keeps, and which line of program text
stands for which program.
-/

namespace Sys2Proof.Machine

/-- The k-th parameter word of the instruction at `pc` (20_memory.md R63). -/
def rawAt (s : State) (k : Nat) : Word := memGet s.mem (s.pc + k)

/-- The effective address of parameter `k` under mode `m`; none in immediate mode (20_memory.md R64 to R70). -/
def operandAddr (s : State) (k : Nat) (m : Mode) : Option Int := effAddr m (rawAt s k) s.rb

/-- The value of read parameter `k` under mode `m` (20_memory.md R64 to R66). -/
def operandValue (s : State) (k : Nat) (m : Mode) : Word :=
  match operandAddr s k m with
  | none => rawAt s k
  | some a => memGet s.mem a.toNat

/-- The fault an access at the exact address `a` raises, if any (20_memory.md R52). -/
def addrFault (s : State) (a : Int) : Option Cause :=
  if a < 0 then some (.negativeAddress a)
  else if (s.cfg.memCapacity : Int) ≤ a then some (.addressBeyondCapacity a)
  else none

/-- The first fault of fetching and resolving read parameter `k`, if any (40_execution_cycle.md R126). -/
def readFault (s : State) (k : Nat) (m : Mode) : Option Cause :=
  match addrFault s ((s.pc : Int) + k) with
  | some c => some c
  | none =>
    match operandAddr s k m with
    | none => none
    | some a => addrFault s a

/-- The first fault of fetching and resolving write parameter `k`, if any (40_execution_cycle.md R126, 30_encoding.md
R86). -/
def writeFault (s : State) (k : Nat) (m : Mode) : Option Cause :=
  match addrFault s ((s.pc : Int) + k) with
  | some c => some c
  | none =>
    match operandAddr s k m with
    | none => some (.immediateWriteTarget k)
    | some a => addrFault s a

/-- The first fault of the three parameters of format F3, in the order of 60_exceptions.md R208. -/
def threeOperandFault (s : State) (m1 m2 m3 : Mode) : Option Cause :=
  match readFault s 1 m1 with
  | some c => some c
  | none =>
    match readFault s 2 m2 with
    | some c => some c
    | none => writeFault s 3 m3

/-- The first fault of the two parameters of format F2R, in the order of 60_exceptions.md R208. -/
def twoOperandFault (s : State) (m1 m2 : Mode) : Option Cause :=
  match readFault s 1 m1 with
  | some c => some c
  | none => readFault s 2 m2

/-- The extent after an access at `a` to a memory of extent `e` (20_memory.md R53, R54). -/
def extTouch (e a : Nat) : Nat := if e ≤ a then a + 1 else e

/-- The extent after parameter `k` is fetched and the cell it addresses, if any, is accessed. -/
def extParam (s : State) (k : Nat) (m : Mode) (e : Nat) : Nat :=
  match operandAddr s k m with
  | none => extTouch e (s.pc + k)
  | some a => extTouch (extTouch e (s.pc + k)) a.toNat

/-- The extent after the three parameters of format F3 and the write. -/
def extThree (s : State) (m1 m2 m3 : Mode) : Nat :=
  extParam s 3 m3 (extParam s 2 m2 (extParam s 1 m1 s.ext))

/-- The extent after the two parameters of format F2R. -/
def extTwo (s : State) (m1 m2 : Mode) : Nat := extParam s 2 m2 (extParam s 1 m1 s.ext)

/-- `t` is `s` with the fault `c` of an instruction taken, and nothing else changed but growth of the extent by reads
already made (40_execution_cycle.md R127, R129). -/
def FaultTaken (c : Cause) (s t : State) : Prop :=
  ∃ e, s.ext ≤ e ∧ t = { takeFault .core c s with ext := e }

/-- A recorded cause is one the table of 60_exceptions.md R200 admits for its origin, and its info is as R201 to R207
say. -/
def causeLegal (capacity : Nat) (origin : Origin) : Cause → Prop
  | .invalidOpcode w => origin = .core ∧ (w.toInt < 0 ∨ instrOfOpcode (w.toNat % 100) = none)
  | .invalidParameterMode k d =>
    origin = .core ∧ ((1 ≤ k ∧ k ≤ 3 ∧ 3 ≤ d ∧ d ≤ 9) ∨ (k = 4 ∧ 1 ≤ d))
  | .immediateWriteTarget k => origin = .core ∧ (k = 1 ∨ k = 3)
  | .negativeAddress a => a < 0
  | .addressBeyondCapacity a => (capacity : Int) ≤ a
  | .arithmeticOverflow v => origin = .core ∧ ¬ InWord v
  | .queueUnderflow => origin = .host

/-- What holds of every state a construction, a step or a host operation leads to. -/
structure StateInv (s : State) : Prop where
  /-- The capacity is a value of its parameter (00_scope.md R6). -/
  capacity : s.cfg.memCapacity ≤ maxCapacity
  /-- Memory is in canonical form. -/
  canonical : s.mem.wf
  /-- A cell at or beyond the extent is 0, so is not listed (10_state.md R25). -/
  listed : ∀ c ∈ s.mem, c.1 < s.ext
  /-- The extent never exceeds the capacity (10_state.md R26). -/
  extent : s.ext ≤ s.cfg.memCapacity
  /-- The program counter stays in `[0, 2^63]` (10_state.md R22). -/
  counter : s.pc ≤ maxCapacity
  /-- There is a fault record exactly in Faulted (10_state.md R30). -/
  recorded : s.status = .faulted ↔ s.fault ≠ none
  /-- The record names the program counter at the fault, which has not moved since, and a legal cause (10_state.md R30,
  60_exceptions.md R200). -/
  record : ∀ r, s.fault = some r → r.pc = s.pc ∧ causeLegal s.cfg.memCapacity r.origin r.cause

/-- The value of decimal digits, the most significant first (30_encoding.md R98). -/
def decimalValue (ds : List (Fin 10)) : Nat := ds.foldl (fun n d => 10 * n + d.val) 0

/-- The characters of decimal digits. -/
def decimalText (ds : List (Fin 10)) : List Char := ds.map fun d => Nat.digitChar d.val

/-- `cs` is an item `-?[0-9]+` with the exact value `v` (30_encoding.md R99). -/
def ItemText (cs : List Char) (v : Int) : Prop :=
  ∃ ds, ds ≠ [] ∧
    ((cs = decimalText ds ∧ v = decimalValue ds) ∨ (cs = '-' :: decimalText ds ∧ v = -(decimalValue ds : Int)))

/-- `line` is one line of program text for the program `ws`: nothing, or items separated by single commas, each with the
value of its word; then at most one LF or CRLF (30_encoding.md R98, R99). -/
def LineText (line : List Char) (ws : List Word) : Prop :=
  ∃ body lineEnd, line = body ++ lineEnd ∧ lineEnd ∈ [[], ['\n'], ['\r', '\n']] ∧
    ((body = [] ∧ ws = []) ∨
      ∃ items, items ≠ [] ∧ body = List.intercalate [','] items ∧ items.length = ws.length ∧
        ∀ p ∈ items.zip ws, ItemText p.1 p.2.toInt)

end Sys2Proof.Machine
end

