-- ==== Sys2Proof/Certificates/Slice0/Obligations.lean ====
section
/-!
DEFINITION. The statements for the provers. Each docstring names the rule of spec/ it formalises. Operands are described
from the state the instruction starts in (Safety.lean), so each statement holds for every mode the instruction admits.
-/

open Sys2Proof Sys2Proof.Machine

/-! ### Encoding and decoding (30_encoding.md) -/

/-- Every well-formed instruction, at every mode its encoding admits, is what its word decodes to (R81, R87). -/
def Obligations.DecodeOfEncodeIsIdentity : Prop :=
  ∀ i : Instr, i.wellFormed = true → decode (encode i) = .ok i

/-- A word that decodes is the word of the instruction it decodes to, which is well-formed, and lies in `[1, 22299]`
(R94, R95): no two words decode to one instruction. -/
def Obligations.EncodeOfDecodeIsIdentity : Prop :=
  ∀ (w : Word) (i : Instr), decode w = .ok i →
    encode i = w ∧ i.wellFormed = true ∧ 1 ≤ w.toNat ∧ w.toNat ≤ 22299

/-- The decoder is the complete decoder of R87, check by check: sign, opcode, mode digits 1 to 3, high digits, immediate
write target; the first failing check is the one reported, and the answer is the opcode and the three mode digits. -/
def Obligations.DecodeFollowsCheckOrder : Prop :=
  ∀ w : Word,
    (decode w).map (fun i => (opcodeOf i, digitOfMode (modesOf i).1, digitOfMode (modesOf i).2.1,
        digitOfMode (modesOf i).2.2)) =
      if w.toInt < 0 then .error (.invalidOpcode w)
      else if w.toNat % 100 ∉ [1, 2, 3, 4, 5, 6, 7, 8, 9, 99] then .error (.invalidOpcode w)
      else if dec w.toNat 2 ∉ [0, 1, 2] then .error (.invalidParameterMode 1 (dec w.toNat 2))
      else if dec w.toNat 3 ∉ [0, 1, 2] then .error (.invalidParameterMode 2 (dec w.toNat 3))
      else if dec w.toNat 4 ∉ [0, 1, 2] then .error (.invalidParameterMode 3 (dec w.toNat 4))
      else if 100000 ≤ w.toNat then .error (.invalidParameterMode 4 (w.toNat / 100000))
      else if w.toNat % 100 ∈ [1, 2, 7, 8] ∧ dec w.toNat 4 = 1 then .error (.immediateWriteTarget 3)
      else if w.toNat % 100 = 3 ∧ dec w.toNat 2 = 1 then .error (.immediateWriteTarget 1)
      else .ok (w.toNat % 100, dec w.toNat 2, dec w.toNat 3, dec w.toNat 4)

/-- One word per opcode, written out from the digit pattern `CBAOO` (R81, R89). -/
def Obligations.SampleWordsDecode : Prop :=
  decode 1201 = .ok (.add .relative .immediate .position) ∧
  decode 1002 = .ok (.mul .position .immediate .position) ∧
  decode 203 = .ok (.input .relative .position .position) ∧
  decode 10004 = .ok (.output .position .position .immediate) ∧
  decode 1105 = .ok (.jumpIfTrue .immediate .immediate .position) ∧
  decode 2106 = .ok (.jumpIfFalse .immediate .relative .position) ∧
  decode 20007 = .ok (.lessThan .position .position .relative) ∧
  decode 1108 = .ok (.equals .immediate .immediate .position) ∧
  decode 209 = .ok (.adjustBase .relative .position .position) ∧
  decode 20199 = .ok (.halt .immediate .position .relative)

/-! ### Memory and operand resolution (20_memory.md) -/

/-- `MemRead` (R53): the address check, then the growth, then the cell; a read beyond the extent returns 0. -/
def Obligations.MemReadChecksGrowsReads : Prop :=
  ∀ (a : Int) (s : State),
    (a < 0 → memRead a s = .raise (.negativeAddress a) s) ∧
    (0 ≤ a → (s.cfg.memCapacity : Int) ≤ a → memRead a s = .raise (.addressBeyondCapacity a) s) ∧
    (0 ≤ a → a < s.cfg.memCapacity →
      memRead a s = .ok (memGet s.mem a.toNat)
        { s with ext := if s.ext ≤ a.toNat then a.toNat + 1 else s.ext }) ∧
    (StateInv s → (s.ext : Int) ≤ a → memGet s.mem a.toNat = 0)

/-- `MemWrite` (R54): the address check, then the growth, then the one cell; every other cell, those between the old
extent and the address among them, reads as before, and those beyond the extent read 0. -/
def Obligations.MemWriteChecksGrowsWrites : Prop :=
  ∀ (a : Int) (v : Word) (s : State),
    (a < 0 → memWrite a v s = .raise (.negativeAddress a) s) ∧
    (0 ≤ a → (s.cfg.memCapacity : Int) ≤ a → memWrite a v s = .raise (.addressBeyondCapacity a) s) ∧
    (0 ≤ a → a < s.cfg.memCapacity → StateInv s →
      ∃ m : Memory, m.wf ∧
        memWrite a v s = .ok () { s with mem := m, ext := if s.ext ≤ a.toNat then a.toNat + 1 else s.ext } ∧
        (∀ b : Nat, memGet m b = if b = a.toNat then v else memGet s.mem b) ∧
        ∀ b : Nat, s.ext ≤ b → b ≠ a.toNat → memGet m b = 0)

/-- Memory is a total function from addresses to words (10_state.md R25): two canonical memories that read the same
everywhere are the same data. -/
def Obligations.EqualReadsAreEqualMemories : Prop :=
  ∀ m m' : Memory, m.wf → m'.wf → (∀ a : Nat, memGet m a = memGet m' a) → m = m'

/-- `Peek` gives what a read gives at every existing address, and changes nothing (R56, R53). -/
def Obligations.PeekAgreesWithRead : Prop :=
  ∀ (s : State) (a : Nat), StateInv s → a < s.cfg.memCapacity →
    peek a s = memGet s.mem a ∧ ∃ s', memRead a s = .ok (peek a s) s'

/-- `resolve_read` in the three modes, with the faults of each (R64, R65, R66): position takes the word as an address,
immediate takes it as the value with no access and no fault, relative adds the relative base exactly. -/
def Obligations.ResolveReadFollowsMode : Prop :=
  ∀ (raw : Word) (s : State),
    resolveRead .immediate raw s = .ok raw s ∧
    ∀ (m : Mode) (a : Int),
      (m = .position ∧ a = raw.toInt) ∨ (m = .relative ∧ a = raw.toInt + s.rb.toInt) →
      (a < 0 → resolveRead m raw s = .raise (.negativeAddress a) s) ∧
      ((s.cfg.memCapacity : Int) ≤ a → resolveRead m raw s = .raise (.addressBeyondCapacity a) s) ∧
      (0 ≤ a → a < s.cfg.memCapacity →
        resolveRead m raw s = .ok (memGet s.mem a.toNat)
          { s with ext := if s.ext ≤ a.toNat then a.toNat + 1 else s.ext })

/-- `resolve_write_address` in position and relative mode: the checked address, and nothing changes (R67, R68). -/
def Obligations.ResolveWriteFollowsMode : Prop :=
  ∀ (k : Nat) (raw : Word) (s : State) (m : Mode) (a : Int),
    (m = .position ∧ a = raw.toInt) ∨ (m = .relative ∧ a = raw.toInt + s.rb.toInt) →
    (a < 0 → resolveWrite k m raw s = .raise (.negativeAddress a) s) ∧
    (0 ≤ a → (s.cfg.memCapacity : Int) ≤ a → resolveWrite k m raw s = .raise (.addressBeyondCapacity a) s) ∧
    (0 ≤ a → a < s.cfg.memCapacity → resolveWrite k m raw s = .ok a.toNat s)

/-! ### What each instruction does (41 to 45) -/

/-- ADD completes with the exact sum written (41_arithmetic.md R151): the operands resolve, the destination is `d`, and
`r` is the word whose value is the exact sum. Nothing else changes but the extent and the program counter. -/
def Obligations.AddWritesExactSum : Prop :=
  ∀ (m1 m2 m3 : Mode) (s : State) (d : Int) (r : Word),
    threeOperandFault s m1 m2 m3 = none → operandAddr s 3 m3 = some d →
    r.toInt = (operandValue s 1 m1).toInt + (operandValue s 2 m2).toInt →
    exec (.add m1 m2 m3) s =
      .next { s with mem := memSet s.mem d.toNat r, ext := extThree s m1 m2 m3, pc := s.pc + 4 }

/-- MUL completes with the exact signed product written (41_arithmetic.md R152). -/
def Obligations.MulWritesExactProduct : Prop :=
  ∀ (m1 m2 m3 : Mode) (s : State) (d : Int) (r : Word),
    threeOperandFault s m1 m2 m3 = none → operandAddr s 3 m3 = some d →
    r.toInt = (operandValue s 1 m1).toInt * (operandValue s 2 m2).toInt →
    exec (.mul m1 m2 m3) s =
      .next { s with mem := memSet s.mem d.toNat r, ext := extThree s m1 m2 m3, pc := s.pc + 4 }

/-- LT completes with the word 1 or 0 of the signed comparison written (44_compare.md R180, R182). -/
def Obligations.LessThanWritesOneOrZero : Prop :=
  ∀ (m1 m2 m3 : Mode) (s : State) (d : Int),
    threeOperandFault s m1 m2 m3 = none → operandAddr s 3 m3 = some d →
    exec (.lessThan m1 m2 m3) s =
      .next { s with
        mem := memSet s.mem d.toNat
          (if (operandValue s 1 m1).toInt < (operandValue s 2 m2).toInt then 1 else 0),
        ext := extThree s m1 m2 m3, pc := s.pc + 4 }

/-- EQ completes with the word 1 or 0 of the equality written (44_compare.md R181, R182). -/
def Obligations.EqualsWritesOneOrZero : Prop :=
  ∀ (m1 m2 m3 : Mode) (s : State) (d : Int),
    threeOperandFault s m1 m2 m3 = none → operandAddr s 3 m3 = some d →
    exec (.equals m1 m2 m3) s =
      .next { s with
        mem := memSet s.mem d.toNat (if operandValue s 1 m1 = operandValue s 2 m2 then 1 else 0),
        ext := extThree s m1 m2 m3, pc := s.pc + 4 }

/-- IN completes with the oldest queued value removed and written (42_io.md R160, R162), where no fixed value is in
force (70_reset_and_hazards.md R251; the policy `always` with no fixed value is the model's reading, log entry 7). -/
def Obligations.InputStoresOldestQueuedValue : Prop :=
  ∀ (m1 m2 m3 : Mode) (s : State) (d : Int) (v : Word) (q : List Word),
    (s.cfg.fixedInputPolicy = .once ∨ s.cfg.fixedInput = none) → s.inq = v :: q →
    writeFault s 1 m1 = none → operandAddr s 1 m1 = some d →
    exec (.input m1 m2 m3) s =
      .next { s with mem := memSet s.mem d.toNat v, ext := extParam s 1 m1 s.ext, inq := q, pc := s.pc + 2 }

/-- Under the policy `always` IN completes with the fixed value written, and the queue is not used
(70_reset_and_hazards.md R251). -/
def Obligations.InputStoresFixedValueUnderAlways : Prop :=
  ∀ (m1 m2 m3 : Mode) (s : State) (d : Int) (v : Word),
    s.cfg.fixedInputPolicy = .always → s.cfg.fixedInput = some v →
    writeFault s 1 m1 = none → operandAddr s 1 m1 = some d →
    exec (.input m1 m2 m3) s =
      .next { s with mem := memSet s.mem d.toNat v, ext := extParam s 1 m1 s.ext, pc := s.pc + 2 }

/-- IN on an empty queue is Blocked: the step from a Runnable state within the invariant whose word at `pc` decodes to
an Input changes nothing, whatever the destination (40_execution_cycle.md R125). The policy `always` with no fixed value
is the model's reading, log entry 7; that a Blocked step is a next state, log entry 8; and what exec answers for an
ill-formed IN, which the decoder never gives (it faults even on an empty queue), log entry 5. -/
def Obligations.InputBlocksOnEmptyQueue : Prop :=
  ∀ (m1 m2 m3 : Mode) (s : State),
    (s.cfg.fixedInputPolicy = .once ∨ s.cfg.fixedInput = none) → s.inq = [] →
    exec (.input m1 m2 m3) s = .next s ∧
    (StateInv s → s.status = .runnable → s.pc < s.cfg.memCapacity →
      decode (memGet s.mem s.pc) = .ok (.input m1 m2 m3) → step s = .next s ∧ stepBlocks s = true)

/-- OUT completes with its operand appended to the output queue (42_io.md R161). -/
def Obligations.OutputAppendsValue : Prop :=
  ∀ (m1 m2 m3 : Mode) (s : State), readFault s 1 m1 = none →
    exec (.output m1 m2 m3) s =
      .next { s with outq := s.outq ++ [operandValue s 1 m1], ext := extParam s 1 m1 s.ext, pc := s.pc + 2 }

/-- JT completes: on 0 it falls through, ignoring the target; on any other word it goes to a target that is no negative
number (43_jumps.md R170, R172). Both operands are resolved either way. -/
def Obligations.JumpIfTrueGoesOrFallsThrough : Prop :=
  ∀ (m1 m2 m3 : Mode) (s : State), twoOperandFault s m1 m2 = none →
    (operandValue s 1 m1 = 0 →
      exec (.jumpIfTrue m1 m2 m3) s = .next { s with pc := s.pc + 3, ext := extTwo s m1 m2 }) ∧
    (operandValue s 1 m1 ≠ 0 → 0 ≤ (operandValue s 2 m2).toInt →
      exec (.jumpIfTrue m1 m2 m3) s =
        .next { s with pc := (operandValue s 2 m2).toInt.toNat, ext := extTwo s m1 m2 })

/-- JF completes: on 0 it goes to a target that is no negative number; on any other word it falls through, ignoring the
target (43_jumps.md R171, R172). -/
def Obligations.JumpIfFalseGoesOrFallsThrough : Prop :=
  ∀ (m1 m2 m3 : Mode) (s : State), twoOperandFault s m1 m2 = none →
    (operandValue s 1 m1 ≠ 0 →
      exec (.jumpIfFalse m1 m2 m3) s = .next { s with pc := s.pc + 3, ext := extTwo s m1 m2 }) ∧
    (operandValue s 1 m1 = 0 → 0 ≤ (operandValue s 2 m2).toInt →
      exec (.jumpIfFalse m1 m2 m3) s =
        .next { s with pc := (operandValue s 2 m2).toInt.toNat, ext := extTwo s m1 m2 })

/-- ARB completes with the exact sum of the old base and its operand in the base (45_relbase_halt.md R190). -/
def Obligations.AdjustBaseAddsExactly : Prop :=
  ∀ (m1 m2 m3 : Mode) (s : State) (r : Word), readFault s 1 m1 = none →
    r.toInt = s.rb.toInt + (operandValue s 1 m1).toInt →
    exec (.adjustBase m1 m2 m3) s = .next { s with rb := r, ext := extParam s 1 m1 s.ext, pc := s.pc + 2 }

/-- HALT completes in every state and under every mode digits with the status Halted and nothing else changed but the
program counter, of which nothing is claimed (45_relbase_halt.md R191, 93_implementation_defined.md I9). A Halted core
has no step (40_execution_cycle.md R121), which the model says by a named stop, log entry 8. -/
def Obligations.HaltCompletesAndStops : Prop :=
  ∀ (m1 m2 m3 : Mode) (s : State), ∃ p t,
    exec (.halt m1 m2 m3) s = .next t ∧ t = { s with status := .halted, pc := p } ∧
    step t = .fault .haltedHasNoStep

/-! ### Faults (60_exceptions.md, 40_execution_cycle.md R126 to R129) -/

/-- A sum, product or new relative base outside the word range faults ArithmeticOverflow with the exact result, once the
operands are resolved; it is never wrapped (41_arithmetic.md R150, 60_exceptions.md R206). -/
def Obligations.OverflowFaultsWithExactResult : Prop :=
  ∀ (m1 m2 m3 : Mode) (s : State),
    (threeOperandFault s m1 m2 m3 = none →
      ¬ InWord ((operandValue s 1 m1).toInt + (operandValue s 2 m2).toInt) →
      ∃ t, exec (.add m1 m2 m3) s = .next t ∧
        FaultTaken (.arithmeticOverflow ((operandValue s 1 m1).toInt + (operandValue s 2 m2).toInt)) s t) ∧
    (threeOperandFault s m1 m2 m3 = none →
      ¬ InWord ((operandValue s 1 m1).toInt * (operandValue s 2 m2).toInt) →
      ∃ t, exec (.mul m1 m2 m3) s = .next t ∧
        FaultTaken (.arithmeticOverflow ((operandValue s 1 m1).toInt * (operandValue s 2 m2).toInt)) s t) ∧
    (readFault s 1 m1 = none → ¬ InWord (s.rb.toInt + (operandValue s 1 m1).toInt) →
      ∃ t, exec (.adjustBase m1 m2 m3) s = .next t ∧
        FaultTaken (.arithmeticOverflow (s.rb.toInt + (operandValue s 1 m1).toInt)) s t)

/-- ArithmeticOverflow comes from ADD, MUL and ARB alone, with a result that is no word; address sums never raise it
(60_exceptions.md R206, 20_memory.md R70). -/
def Obligations.OnlyArithmeticOverflows : Prop :=
  ∀ (s t : State) (r : FaultRecord) (v : Int),
    StateInv s → step s = .next t → t.fault = some r → r.cause = .arithmeticOverflow v →
    ¬ InWord v ∧ ∃ i, decode (memGet s.mem s.pc) = .ok i ∧ opcodeOf i ∈ [1, 2, 9]

/-- ADD, MUL, LT and EQ take the first fault of their parameters: parameter 1's fetch and resolution, then parameter
2's, then parameter 3's, and nothing but the extent changes beside the fault entry (60_exceptions.md R208,
40_execution_cycle.md R126, R127). For an ill-formed instruction, which the decoder never gives, this is the model's
choice, log entry 5. -/
def Obligations.ThreeOperandFaultPriority : Prop :=
  ∀ (m1 m2 m3 : Mode) (s : State) (c : Cause), threeOperandFault s m1 m2 m3 = some c →
    ∀ i ∈ [Instr.add m1 m2 m3, Instr.mul m1 m2 m3, Instr.lessThan m1 m2 m3, Instr.equals m1 m2 m3],
      ∃ t, exec i s = .next t ∧ FaultTaken c s t

/-- OUT, ARB, JT, JF and IN take the first fault of their parameters (60_exceptions.md R208, 40_execution_cycle.md R126,
R127): a jump whether or not it would be taken, IN only when input is available, and then without consuming it. Input is
available when the queue holds a value, and under the policy `always` with a fixed value whatever the queue holds, since
IN never blocks there (70_reset_and_hazards.md R251); a queued value under `always` with no fixed value is the model's
reading, log entry 7. For an ill-formed IN, which the decoder never gives, this is the model's choice, log entry 5. -/
def Obligations.OtherOperandFaultPriority : Prop :=
  ∀ (m1 m2 m3 : Mode) (s : State) (c : Cause),
    (readFault s 1 m1 = some c →
      ∀ i ∈ [Instr.output m1 m2 m3, Instr.adjustBase m1 m2 m3], ∃ t, exec i s = .next t ∧ FaultTaken c s t) ∧
    (twoOperandFault s m1 m2 = some c →
      ∀ i ∈ [Instr.jumpIfTrue m1 m2 m3, Instr.jumpIfFalse m1 m2 m3],
        ∃ t, exec i s = .next t ∧ FaultTaken c s t) ∧
    (writeFault s 1 m1 = some c →
      (s.inq ≠ [] ∨ (s.cfg.fixedInputPolicy = .always ∧ s.cfg.fixedInput ≠ none)) →
      ∃ t, exec (.input m1 m2 m3) s = .next t ∧ FaultTaken c s t)

/-- Where a taken jump goes (43_jumps.md R172): to a negative target it faults NegativeAddress with the program counter
still at the jump; a target at or beyond the capacity is not checked at the jump and faults AddressBeyondCapacity at the
next fetch; a target at or beyond the extent and below the capacity fetches 0 there, which faults InvalidOpcode. -/
def Obligations.TakenJumpTargets : Prop :=
  ∀ (m1 m2 m3 : Mode) (s : State) (i : Instr),
    (i = .jumpIfTrue m1 m2 m3 ∧ operandValue s 1 m1 ≠ 0) ∨ (i = .jumpIfFalse m1 m2 m3 ∧ operandValue s 1 m1 = 0) →
    twoOperandFault s m1 m2 = none → s.status = .runnable →
    ((operandValue s 2 m2).toInt < 0 →
      ∃ t, exec i s = .next t ∧ FaultTaken (.negativeAddress (operandValue s 2 m2).toInt) s t ∧ t.pc = s.pc) ∧
    (0 ≤ (operandValue s 2 m2).toInt →
      ∃ t, exec i s = .next t ∧ (t.pc : Int) = (operandValue s 2 m2).toInt ∧ t.status = .runnable ∧
        (s.cfg.memCapacity ≤ t.pc → step t = .next (takeFault .core (.addressBeyondCapacity t.pc) t)) ∧
        (StateInv s → t.ext ≤ t.pc → t.pc < s.cfg.memCapacity →
          step t = .next { takeFault .core (.invalidOpcode 0) t with ext := t.pc + 1 }))

/-- A step that faults leaves memory, program counter, relative base, queues and configuration exactly as they were; only
the extent may have grown; the record names the faulting instruction's address and the origin Core
(40_execution_cycle.md R127, R129). -/
def Obligations.FaultsArePrecise : Prop :=
  ∀ s t : State, step s = .next t → t.status = .faulted →
    t.mem = s.mem ∧ t.pc = s.pc ∧ t.rb = s.rb ∧ t.inq = s.inq ∧ t.outq = s.outq ∧ t.cfg = s.cfg ∧
    s.ext ≤ t.ext ∧ ∃ c, t.fault = some { cause := c, origin := .core, pc := s.pc }

/-! ### Frames -/

/-- The frame of ADD, MUL, LT and EQ (41_arithmetic.md R151, R152; 44_compare.md R180, R181): the relative base, the
queues and the configuration are unchanged; every cell but the one parameter 3 addresses reads as before; the status and
the record are unchanged unless a fault was taken, and then memory and the program counter are unchanged. -/
def Obligations.ThreeOperandFrame : Prop :=
  ∀ (m1 m2 m3 : Mode) (s t : State),
    ∀ i ∈ [Instr.add m1 m2 m3, Instr.mul m1 m2 m3, Instr.lessThan m1 m2 m3, Instr.equals m1 m2 m3],
      exec i s = .next t →
      t.rb = s.rb ∧ t.inq = s.inq ∧ t.outq = s.outq ∧ t.cfg = s.cfg ∧ s.ext ≤ t.ext ∧
      (∀ a : Nat, operandAddr s 3 m3 ≠ some (a : Int) → memGet t.mem a = memGet s.mem a) ∧
      ((t.status = s.status ∧ t.fault = s.fault) ∨
        (t.mem = s.mem ∧ t.pc = s.pc ∧ ∃ c, t.status = .faulted ∧
          t.fault = some { cause := c, origin := .core, pc := s.pc }))

/-- The frame of IN (42_io.md R160): the relative base, the output queue and the configuration are unchanged; the input
queue loses at most its oldest value; every cell but the one parameter 1 addresses reads as before; the status and the
record are unchanged unless a fault was taken, and then the queue and memory are unchanged. -/
def Obligations.InputFrame : Prop :=
  ∀ (m1 m2 m3 : Mode) (s t : State), exec (.input m1 m2 m3) s = .next t →
    t.rb = s.rb ∧ t.outq = s.outq ∧ t.cfg = s.cfg ∧ s.ext ≤ t.ext ∧
    (t.inq = s.inq ∨ ∃ v, s.inq = v :: t.inq) ∧
    (∀ a : Nat, operandAddr s 1 m1 ≠ some (a : Int) → memGet t.mem a = memGet s.mem a) ∧
    ((t.status = s.status ∧ t.fault = s.fault) ∨
      (t.mem = s.mem ∧ t.pc = s.pc ∧ t.inq = s.inq ∧ ∃ c, t.status = .faulted ∧
        t.fault = some { cause := c, origin := .core, pc := s.pc }))

/-- The frame of OUT, JT, JF, ARB and HALT (42_io.md R161, 43_jumps.md R170, R171, 45_relbase_halt.md R190, R191): every
cell reads as before and the input queue and configuration are unchanged; only OUT changes the output queue, by one value
at its back; only ARB changes the relative base; the status and the record are unchanged, but that HALT sets Halted and a
fault entry sets both. -/
def Obligations.NonStoringFrame : Prop :=
  ∀ (m1 m2 m3 : Mode) (s t : State),
    ∀ i ∈ [Instr.output m1 m2 m3, Instr.jumpIfTrue m1 m2 m3, Instr.jumpIfFalse m1 m2 m3,
        Instr.adjustBase m1 m2 m3, Instr.halt m1 m2 m3],
      exec i s = .next t →
      (∀ a : Nat, memGet t.mem a = memGet s.mem a) ∧ t.inq = s.inq ∧ t.cfg = s.cfg ∧ s.ext ≤ t.ext ∧
      (t.outq = s.outq ∨ (i = .output m1 m2 m3 ∧ ∃ v, t.outq = s.outq ++ [v])) ∧
      (t.rb = s.rb ∨ i = .adjustBase m1 m2 m3) ∧
      ((t.status = s.status ∧ t.fault = s.fault) ∨
        (i = .halt m1 m2 m3 ∧ t.status = .halted ∧ t.fault = s.fault) ∨
        (t.pc = s.pc ∧ t.rb = s.rb ∧ t.outq = s.outq ∧ ∃ c, t.status = .faulted ∧
          t.fault = some { cause := c, origin := .core, pc := s.pc }))

/-- An instruction other than a jump, HALT or a blocked IN that completes without a fault moves the program counter by
its length in words, which its opcode alone gives (40_execution_cycle.md R128, 30_encoding.md R89, R93). -/
def Obligations.SequentialAdvanceIsTheLength : Prop :=
  ∀ (i : Instr) (s t : State), s.status = .runnable → exec i s = .next t → t.status = .runnable →
    opcodeOf i ∉ [5, 6, 99] → ¬ (opcodeOf i = 3 ∧ nextInput s = none) →
    t.pc = s.pc + instrLength i ∧
      instrLength i = (if opcodeOf i ∈ [1, 2, 7, 8] then 4 else 2)

/-! ### Whole-machine rules -/

/-- The relative base is changed by an ARB alone (10_state.md R24). -/
def Obligations.OnlyArbMovesTheBase : Prop :=
  ∀ s t : State, step s = .next t → t.rb ≠ s.rb →
    ∃ m1 m2 m3, decode (memGet s.mem s.pc) = .ok (.adjustBase m1 m2 m3)

/-- Halted is entered by a HALT alone (10_state.md R29). -/
def Obligations.OnlyHaltHalts : Prop :=
  ∀ s t : State, step s = .next t → t.status = .halted →
    ∃ m1 m2 m3, decode (memGet s.mem s.pc) = .ok (.halt m1 m2 m3)

/-- Both queues are first-in first-out (10_state.md R27, R28; 42_io.md R162): a step removes at most the oldest input,
and only an IN does; it adds at most one output, at the back, and only an OUT does. -/
def Obligations.StepsKeepQueueOrder : Prop :=
  ∀ s t : State, step s = .next t →
    (t.inq = s.inq ∨ ∃ v m1 m2 m3, s.inq = v :: t.inq ∧ decode (memGet s.mem s.pc) = .ok (.input m1 m2 m3)) ∧
    (t.outq = s.outq ∨
      ∃ v m1 m2 m3, t.outq = s.outq ++ [v] ∧ decode (memGet s.mem s.pc) = .ok (.output m1 m2 m3))

/-- Every instruction answers a next state in every state: none is refused and none ends in a fault outside the machine
(30_encoding.md R94); and a Runnable core always has a step (40_execution_cycle.md R121). What exec answers for an
ill-formed instruction is the model's choice, log entry 5. -/
def Obligations.EveryInstructionAnswers : Prop :=
  (∀ (i : Instr) (s : State), ∃ t, exec i s = .next t) ∧
  ∀ s : State, s.status = .runnable → ∃ t, step s = .next t

/-! ### The step (40_execution_cycle.md) -/

/-- A step runs the instruction that the word at the program counter decodes to, on the state with the extent grown by
the fetch (R122, R123); below the extent that growth is none. -/
def Obligations.StepRunsDecodedInstruction : Prop :=
  ∀ (s : State) (i : Instr), s.status = .runnable → s.pc < s.cfg.memCapacity →
    decode (memGet s.mem s.pc) = .ok i →
    step s = exec i { s with ext := if s.ext ≤ s.pc then s.pc + 1 else s.ext } ∧
    (s.pc < s.ext → step s = exec i s)

/-- A step takes the fault of its fetch, AddressBeyondCapacity, or of its decoder (R123, R124, R129). -/
def Obligations.StepTakesFetchAndDecodeFaults : Prop :=
  ∀ s : State, s.status = .runnable →
    (s.cfg.memCapacity ≤ s.pc → step s = .next (takeFault .core (.addressBeyondCapacity s.pc) s)) ∧
    (∀ c, s.pc < s.cfg.memCapacity → decode (memGet s.mem s.pc) = .error c →
      step s = .next { takeFault .core c s with ext := if s.ext ≤ s.pc then s.pc + 1 else s.ext })

/-- A program counter that reaches a cell at or beyond the extent, or any other cell that holds 0, fetches 0 and faults
InvalidOpcode; it is never a silent no-op (R136). -/
def Obligations.RunningOffTheEndFaults : Prop :=
  ∀ s : State, StateInv s → s.status = .runnable → s.pc < s.cfg.memCapacity →
    s.ext ≤ s.pc ∨ memGet s.mem s.pc = 0 →
    ∃ t, step s = .next t ∧ t.status = .faulted ∧ t.pc = s.pc ∧
      t.fault = some { cause := .invalidOpcode 0, origin := .core, pc := s.pc }

/-- A step has exactly one of four outcomes: Stepped, with the status still Runnable and the instruction no HALT; Halted,
the instruction a HALT; Blocked, the instruction an IN and the input queue empty, nothing changed; Faulted, with the fault
recorded. In Halted or Faulted there is no step (R121). -/
def Obligations.StepHasOneOfFourOutcomes : Prop :=
  ∀ s : State, StateInv s →
    (s.status ≠ .runnable → coreStep s = none) ∧
    (s.status = .runnable → ∃ r t, coreStep s = some (r, t) ∧ step s = .next t ∧
      ((r = .stepped ∧ t.status = .runnable ∧
          ∃ i, decode (memGet s.mem s.pc) = .ok i ∧ opcodeOf i ≠ 99) ∨
        (r = .halted ∧ t.status = .halted ∧ ∃ i, decode (memGet s.mem s.pc) = .ok i ∧ opcodeOf i = 99) ∨
        (r = .blocked ∧ t = s ∧ s.inq = [] ∧
          ∃ i, decode (memGet s.mem s.pc) = .ok i ∧ opcodeOf i = 3) ∨
        ∃ f, r = .faulted (some f) ∧ t.status = .faulted ∧ t.fault = some f))

/-! ### Invariants -/

/-- Every step keeps the invariant: canonical memory, no cell at or beyond the extent, the extent within the capacity, the
program counter in `[0, 2^63]`, a fault record exactly in Faulted, and the record legal and precise (10_state.md R22, R25,
R26, R30; 60_exceptions.md R200). -/
def Obligations.StepKeepsInvariant : Prop :=
  ∀ s t : State, StateInv s → step s = .next t → StateInv t

/-- The state after reset meets the invariant (10_state.md R35). -/
def Obligations.ResetMeetsInvariant : Prop := StateInv State.reset

/-- Every constructed instance meets the invariant (70_reset_and_hazards.md R250, R252). -/
def Obligations.ConstructionMeetsInvariant : Prop :=
  ∀ (cfg : Config) (p : List Word) (s : State), construct cfg p = some s → StateInv s

/-- Every host operation that can change an instance keeps the invariant: `push_input`, `pop_output`, `get_memory`,
`set_memory` and `run`; and both instances that `duplicate` leaves are within it (60_exceptions.md R217, R218, R222 to
R226). -/
def Obligations.HostOperationsKeepInvariant : Prop :=
  ∀ (s : State) (a v : Word) (n : Nat), StateInv s →
    StateInv (pushInput v s).2 ∧ StateInv (popOutput s).2 ∧ StateInv (getMemory a s).2 ∧
    StateInv (setMemory a v s).2 ∧ StateInv (run n s).2 ∧
    StateInv (duplicate s).1 ∧ StateInv (duplicate s).2

/-- The extent never shrinks, over every step and every host operation (20_memory.md R55). -/
def Obligations.ExtentNeverShrinks : Prop :=
  ∀ s t : State, (step s = .next t ∨ (∃ n, t = (run n s).2) ∨ (∃ v, t = (pushInput v s).2) ∨ t = (popOutput s).2 ∨
      (∃ a, t = (getMemory a s).2) ∨ ∃ a v, t = (setMemory a v s).2) →
    s.ext ≤ t.ext

/-- The extent is hidden (10_state.md R26): two states that differ only in it take the same steps and the same runs, to
states that differ at most in it, and answer every host operation alike. `needs_input` reads with `Peek`, so there both
states are within the invariant. -/
def Obligations.ExtentIsUnobservable : Prop :=
  ∀ (s : State) (e : Nat),
    (∀ t, step s = .next t → ∃ e', step { s with ext := e } = .next { t with ext := e' }) ∧
    (∀ n, (run n { s with ext := e }).1 = (run n s).1 ∧
      ∃ e', (run n { s with ext := e }).2 = { (run n s).2 with ext := e' }) ∧
    (∀ a, (getMemory a { s with ext := e }).1 = (getMemory a s).1 ∧
      ∃ e', (getMemory a { s with ext := e }).2 = { (getMemory a s).2 with ext := e' }) ∧
    (∀ a v, (setMemory a v { s with ext := e }).1 = (setMemory a v s).1 ∧
      ∃ e', (setMemory a v { s with ext := e }).2 = { (setMemory a v s).2 with ext := e' }) ∧
    (∀ v, (pushInput v { s with ext := e }).1 = (pushInput v s).1 ∧
      (pushInput v { s with ext := e }).2 = { (pushInput v s).2 with ext := e }) ∧
    (popOutput { s with ext := e }).1 = (popOutput s).1 ∧
    (popOutput { s with ext := e }).2 = { (popOutput s).2 with ext := e } ∧
    (StateInv s → StateInv { s with ext := e } → needsInput { s with ext := e } = needsInput s)

/-! ### Construction (70_reset_and_hazards.md) -/

/-- The state right after construction from a program that fits (10_state.md R35): memory holds the program from address
0 on and 0 elsewhere, the extent is its length, the program counter and the relative base are 0, the output queue is
empty, the input queue is empty or holds the fixed input value under the policy `once`, the status is Runnable and there
is no fault. -/
def Obligations.ConstructionState : Prop :=
  ∀ (cfg : Config) (p : List Word), p.length ≤ cfg.memCapacity → cfg.memCapacity ≤ maxCapacity →
    ∃ s, construct cfg p = some s ∧ (∀ a : Nat, memGet s.mem a = p.getD a 0) ∧ s.ext = p.length ∧ s.pc = 0 ∧
      s.rb = 0 ∧ s.outq = [] ∧ s.status = .runnable ∧ s.fault = none ∧ s.cfg = cfg ∧
      (cfg.fixedInput = none → s.inq = []) ∧
      (∀ v, cfg.fixedInput = some v → s.inq = if cfg.fixedInputPolicy = .once then [v] else [])

/-- A program longer than the capacity is refused: no instance is constructed (R252). -/
def Obligations.LongProgramIsRefused : Prop :=
  ∀ (cfg : Config) (p : List Word), cfg.memCapacity < p.length → construct cfg p = none

/-! ### The host port (60_exceptions.md) and the run loop (40_execution_cycle.md R130 to R134) -/

/-- `push_input` appends at the back, without limit or fault, before, between and after runs (R217); after Halt the value
is never consumed. -/
def Obligations.PushInputAppends : Prop :=
  ∀ (v : Word) (s : State), s.status ≠ .faulted →
    pushInput v s = (.value (), { s with inq := s.inq ++ [v] }) ∧
    (s.status = .halted → ∀ n, run n (pushInput v s).2 = (.halted, (pushInput v s).2))

/-- `pop_output` removes and returns the oldest output; on an empty queue it takes QueueUnderflow with origin Host and
returns it (R218). -/
def Obligations.PopOutputTakesTheOldest : Prop :=
  ∀ s : State, s.status ≠ .faulted →
    (∀ v q, s.outq = v :: q → popOutput s = (.value v, { s with outq := q })) ∧
    (s.outq = [] →
      popOutput s = (.fault (some { cause := .queueUnderflow, origin := .host, pc := s.pc }),
        takeFault .host .queueUnderflow s))

/-- `get_memory` and `set_memory` read and write one cell with growth, or take an address fault with origin Host and
change nothing else (R222, R223). -/
def Obligations.HostMemoryAccess : Prop :=
  ∀ (a v : Word) (s : State), s.status ≠ .faulted →
    (0 ≤ a.toInt → a.toInt < s.cfg.memCapacity →
      getMemory a s = (.value (memGet s.mem a.toInt.toNat), { s with ext := extTouch s.ext a.toInt.toNat }) ∧
      setMemory a v s =
        (.value (), { s with mem := memSet s.mem a.toInt.toNat v, ext := extTouch s.ext a.toInt.toNat })) ∧
    (∀ c, addrFault s a.toInt = some c →
      getMemory a s = (.fault (takeFault .host c s).fault, takeFault .host c s) ∧
      setMemory a v s = (.fault (takeFault .host c s).fault, takeFault .host c s))

/-- On a Faulted instance `push_input`, `pop_output`, `get_memory`, `set_memory` and `run` change nothing and return the
recorded fault; a host operation that itself faults moves the instance to Faulted (R226). -/
def Obligations.FaultedInstanceRefuses : Prop :=
  ∀ (s : State) (a v : Word) (n : Nat),
    (s.status = .faulted →
      pushInput v s = (.fault s.fault, s) ∧ popOutput s = (.fault s.fault, s) ∧
      getMemory a s = (.fault s.fault, s) ∧ setMemory a v s = (.fault s.fault, s) ∧
      run n s = (.faulted s.fault, s)) ∧
    (∀ f, (popOutput s).1 = .fault f → (popOutput s).2.status = .faulted ∧ (popOutput s).2.fault = f) ∧
    (∀ f, (getMemory a s).1 = .fault f → (getMemory a s).2.status = .faulted ∧ (getMemory a s).2.fault = f) ∧
    (∀ f, (setMemory a v s).1 = .fault f → (setMemory a v s).2.status = .faulted ∧ (setMemory a v s).2.fault = f)

/-- The host never changes the program counter or the relative base (10_state.md R22, R24), nor a status but to Faulted
(R29). -/
def Obligations.HostLeavesRegisters : Prop :=
  ∀ s t : State, ((∃ v, t = (pushInput v s).2) ∨ t = (popOutput s).2 ∨ (∃ a, t = (getMemory a s).2) ∨
      ∃ a v, t = (setMemory a v s).2) →
    t.pc = s.pc ∧ t.rb = s.rb ∧ t.cfg = s.cfg ∧ (t.status = s.status ∨ t.status = .faulted)

/-- `needs_input` answers true exactly when BlockedOnInput holds: Runnable, the word at `pc` read by `Peek` decodes to an
Input, the input queue empty (R220, 10_state.md R31). With no fixed value in force that is exactly when the next step is
Blocked, and then that step changes nothing (40_execution_cycle.md R125). Under the policy `always` with a fixed value no
step is Blocked (70_reset_and_hazards.md R251), whatever `needs_input` answers: the model's reading, log entry 6. -/
def Obligations.NeedsInputIffBlocked : Prop :=
  ∀ s : State, StateInv s →
    (needsInput s = true ↔
      s.status = .runnable ∧ s.inq = [] ∧ ∃ i, decode (peek s.pc s) = .ok i ∧ opcodeOf i = 3) ∧
    (s.cfg.fixedInputPolicy = .once ∨ s.cfg.fixedInput = none →
      (needsInput s = true ↔ s.status = .runnable ∧ stepBlocks s = true) ∧
      (needsInput s = true → step s = .next s)) ∧
    (s.cfg.fixedInputPolicy = .always → s.cfg.fixedInput ≠ none → stepBlocks s = false)

/-- `run()` on a Halted state returns Halted at once, on a Faulted state the recorded fault at once, and on a state that
is BlockedOnInput (10_state.md R31: Runnable, the word at `pc` read by `Peek` an Input, the input queue empty; no fixed
value in force, under which an IN never blocks, R251, log entry 6) it returns BlockedOnInput after one step; none of
them changes anything (40_execution_cycle.md R131). -/
def Obligations.RunAtRest : Prop :=
  ∀ (s : State) (n : Nat),
    (s.status = .halted → run n s = (.halted, s)) ∧
    (s.status = .faulted → run n s = (.faulted s.fault, s)) ∧
    (StateInv s → s.status = .runnable → isInputAt s = true → s.inq = [] →
      (s.cfg.fixedInputPolicy = .once ∨ s.cfg.fixedInput = none) → run (n + 1) s = (.blockedOnInput, s))

/-- How a run ends (40_execution_cycle.md R134): Halted in a Halted state, BlockedOnInput in a Runnable state where the
condition of 10_state.md R31 holds, Faulted in a Faulted state with the fault recorded; a run out of fuel is still
Runnable (R133). -/
def Obligations.RunEndsAsReported : Prop :=
  ∀ (n : Nat) (s t : State) (r : RunResult), StateInv s → run n s = (r, t) →
    StateInv t ∧
      ((r = .halted ∧ t.status = .halted) ∨
        (r = .blockedOnInput ∧ t.status = .runnable ∧ blockedOnInput t = true) ∨
        (∃ f, r = .faulted (some f) ∧ t.status = .faulted ∧ t.fault = some f) ∨
        (r = .outOfFuel ∧ t.status = .runnable))

/-- A run continues exactly where it left off (40_execution_cycle.md R132): where `needs_input` is true and the host pushes
a value, the next step re-attempts the same IN and either completes it and moves past it, or faults on its parameter,
leaving memory as it was. With no fixed value in force the IN that completes consumes exactly that value, and the one that
faults consumes nothing. Under the policy `always` with a fixed value the pushed value stays queued either way: that
`needs_input` can be true there is the model's reading, log entry 6. -/
def Obligations.ResumeConsumesExactlyOne : Prop :=
  ∀ (s : State) (v : Word), StateInv s → needsInput s = true →
    ∃ t, step (pushInput v s).2 = .next t ∧
      ((t.status = .runnable ∧ t.pc = s.pc + 2) ∨ (t.status = .faulted ∧ t.pc = s.pc ∧ t.mem = s.mem)) ∧
      (s.cfg.fixedInputPolicy = .once ∨ s.cfg.fixedInput = none →
        t.inq = if t.status = .runnable then [] else [v]) ∧
      (s.cfg.fixedInputPolicy = .always → s.cfg.fixedInput ≠ none → t.inq = [v])

/-! ### Program text and assembly (30_encoding.md R96 to R99) -/

/-- A line holding any character that is no digit, comma, minus sign or line end is refused as a whole (R99). -/
def Obligations.OtherCharacterRefusesLine : Prop :=
  ∀ (before after : List Char) (c : Char),
    c ∉ ['0', '1', '2', '3', '4', '5', '6', '7', '8', '9', ',', '-', '\n', '\r'] →
    loadLine (before ++ c :: after) = none

/-- What the assembler emits for an instruction is its instruction word, which decodes to that instruction with the
operands' modes, and one word per operand (R96). -/
def Obligations.AssembledWordsDecode : Prop :=
  ∀ (n : Nat) (mk : Mode → Mode → Mode → Instr) (ops : List Operand) (ws : List Word),
    instrOfOpcode n = some mk → assemble mk ops = some ws →
    ∃ w, ws = w :: ops.map (fun o => o.raw) ∧
      decode w = .ok (mk (operandMode ops 0) (operandMode ops 1) (operandMode ops 2)) ∧
      ws.length = instrLength (mk (operandMode ops 0) (operandMode ops 1) (operandMode ops 2))

/-- The loader constructs a program from a line exactly when the line is that program's text: single commas between items
`-?[0-9]+`, each the value of its word, in order, with or without one final LF or CRLF; an empty line is the empty
program; every other line is refused as a whole (R98, R99). -/
def Obligations.LoaderAcceptsExactlyProgramText : Prop :=
  ∀ (line : List Char) (ws : List Word), loadLine line = some ws ↔ LineText line ws
end

