-- ==== Sys2Proof/Laws/State.lean ====
section
/-!
SUPPORT. What each named update of State does to each field, so that no later proof unfolds a record update.
-/

namespace Sys2Proof.Machine

theorem grow_eq (a : Nat) (s : State) : grow a s = { s with ext := extTouch s.ext a } := by
  unfold grow extTouch
  split <;> rfl

theorem store_eq (a : Nat) (v : Word) (s : State) :
    store a v s = { s with mem := memSet s.mem a v, ext := extTouch s.ext a } := by
  simp only [store, grow_eq]

@[simp] theorem grow_cfg (a : Nat) (s : State) : (grow a s).cfg = s.cfg := by simp only [grow_eq]
@[simp] theorem grow_mem (a : Nat) (s : State) : (grow a s).mem = s.mem := by simp only [grow_eq]
@[simp] theorem grow_ext (a : Nat) (s : State) : (grow a s).ext = extTouch s.ext a := by simp only [grow_eq]
@[simp] theorem grow_pc (a : Nat) (s : State) : (grow a s).pc = s.pc := by simp only [grow_eq]
@[simp] theorem grow_rb (a : Nat) (s : State) : (grow a s).rb = s.rb := by simp only [grow_eq]
@[simp] theorem grow_inq (a : Nat) (s : State) : (grow a s).inq = s.inq := by simp only [grow_eq]
@[simp] theorem grow_outq (a : Nat) (s : State) : (grow a s).outq = s.outq := by simp only [grow_eq]
@[simp] theorem grow_status (a : Nat) (s : State) : (grow a s).status = s.status := by simp only [grow_eq]
@[simp] theorem grow_fault (a : Nat) (s : State) : (grow a s).fault = s.fault := by simp only [grow_eq]

@[simp] theorem store_cfg (a : Nat) (v : Word) (s : State) : (store a v s).cfg = s.cfg := by simp only [store_eq]
@[simp] theorem store_mem (a : Nat) (v : Word) (s : State) : (store a v s).mem = memSet s.mem a v := by simp only [store_eq]
@[simp] theorem store_ext (a : Nat) (v : Word) (s : State) : (store a v s).ext = extTouch s.ext a := by simp only [store_eq]
@[simp] theorem store_pc (a : Nat) (v : Word) (s : State) : (store a v s).pc = s.pc := by simp only [store_eq]
@[simp] theorem store_rb (a : Nat) (v : Word) (s : State) : (store a v s).rb = s.rb := by simp only [store_eq]
@[simp] theorem store_inq (a : Nat) (v : Word) (s : State) : (store a v s).inq = s.inq := by simp only [store_eq]
@[simp] theorem store_outq (a : Nat) (v : Word) (s : State) : (store a v s).outq = s.outq := by simp only [store_eq]
@[simp] theorem store_status (a : Nat) (v : Word) (s : State) : (store a v s).status = s.status := by simp only [store_eq]
@[simp] theorem store_fault (a : Nat) (v : Word) (s : State) : (store a v s).fault = s.fault := by simp only [store_eq]

@[simp] theorem advance_cfg (n : Nat) (s : State) : (advance n s).cfg = s.cfg := rfl
@[simp] theorem advance_mem (n : Nat) (s : State) : (advance n s).mem = s.mem := rfl
@[simp] theorem advance_ext (n : Nat) (s : State) : (advance n s).ext = s.ext := rfl
@[simp] theorem advance_pc (n : Nat) (s : State) : (advance n s).pc = s.pc + n := rfl
@[simp] theorem advance_rb (n : Nat) (s : State) : (advance n s).rb = s.rb := rfl
@[simp] theorem advance_inq (n : Nat) (s : State) : (advance n s).inq = s.inq := rfl
@[simp] theorem advance_outq (n : Nat) (s : State) : (advance n s).outq = s.outq := rfl
@[simp] theorem advance_status (n : Nat) (s : State) : (advance n s).status = s.status := rfl
@[simp] theorem advance_fault (n : Nat) (s : State) : (advance n s).fault = s.fault := rfl

@[simp] theorem takeFault_cfg (o : Origin) (c : Cause) (s : State) : (takeFault o c s).cfg = s.cfg := rfl
@[simp] theorem takeFault_mem (o : Origin) (c : Cause) (s : State) : (takeFault o c s).mem = s.mem := rfl
@[simp] theorem takeFault_ext (o : Origin) (c : Cause) (s : State) : (takeFault o c s).ext = s.ext := rfl
@[simp] theorem takeFault_pc (o : Origin) (c : Cause) (s : State) : (takeFault o c s).pc = s.pc := rfl
@[simp] theorem takeFault_rb (o : Origin) (c : Cause) (s : State) : (takeFault o c s).rb = s.rb := rfl
@[simp] theorem takeFault_inq (o : Origin) (c : Cause) (s : State) : (takeFault o c s).inq = s.inq := rfl
@[simp] theorem takeFault_outq (o : Origin) (c : Cause) (s : State) : (takeFault o c s).outq = s.outq := rfl
@[simp] theorem takeFault_status (o : Origin) (c : Cause) (s : State) : (takeFault o c s).status = .faulted := rfl
@[simp] theorem takeFault_fault (o : Origin) (c : Cause) (s : State) : (takeFault o c s).fault = some { cause := c, origin := o, pc := s.pc } := rfl

theorem le_extTouch (e a : Nat) : e ≤ extTouch e a := by
  unfold extTouch
  split <;> omega

theorem lt_extTouch (e a : Nat) : a < extTouch e a := by
  unfold extTouch
  split <;> omega

theorem extTouch_le {e a n : Nat} (he : e ≤ n) (ha : a < n) : extTouch e a ≤ n := by
  unfold extTouch
  split <;> omega

end Sys2Proof.Machine
end

