-- ==== Sys2Proof/Laws/Memory.lean ====
section
/-!
SUPPORT. Reading and writing memory: the value written is read back, other cells are left alone, the canonical form is
kept, and it makes equal memories equal data.
-/

namespace Sys2Proof.Machine

/-- A write leaves every other cell alone, whether or not the memory is canonical. -/
theorem memGet_memSet_ne {m : Memory} {a b : Nat} (v : Word) (h : b ≠ a) :
    memGet (memSet m a v) b = memGet m b := by
  induction m with
  | nil =>
    unfold memSet
    split <;> simp [memGet, h]
  | cons c m ih =>
    obtain ⟨k, u⟩ := c
    unfold memSet
    split
    · split <;> simp [memGet, h]
    · split
      · rename_i hk
        split <;> simp [memGet, h, ← hk]
      · simp [memGet, ih]

/-- An address below every listed one reads 0. -/
theorem memGet_of_lt {m : Memory} {a : Nat} (h : ∀ c ∈ m, a < c.1) : memGet m a = 0 := by
  induction m with
  | nil => rfl
  | cons c m ih =>
    have hc := h c List.mem_cons_self
    have hm := ih fun d hd => h d (List.mem_cons_of_mem c hd)
    simp only [memGet, hm, ite_eq_right_iff]
    intro e
    omega

/-- An address at or beyond a bound of the listed ones reads 0 (10_state.md R25). -/
theorem memGet_of_listed {m : Memory} {a n : Nat} (h : ∀ c ∈ m, c.1 < n) (ha : n ≤ a) : memGet m a = 0 := by
  induction m with
  | nil => rfl
  | cons c m ih =>
    have hc := h c List.mem_cons_self
    have hm := ih fun d hd => h d (List.mem_cons_of_mem c hd)
    simp only [memGet, hm, ite_eq_right_iff]
    intro e
    omega

theorem wf_tail {c : Nat × Word} {m : Memory} (h : Memory.wf (c :: m)) : Memory.wf m :=
  ⟨(List.pairwise_cons.mp h.1).2, fun d hd => h.2 d (List.mem_cons_of_mem c hd)⟩

theorem wf_head {c : Nat × Word} {m : Memory} (h : Memory.wf (c :: m)) :
    c.2 ≠ 0 ∧ ∀ d ∈ m, c.1 < d.1 :=
  ⟨h.2 c List.mem_cons_self, (List.pairwise_cons.mp h.1).1⟩

theorem wf_cons {c : Nat × Word} {m : Memory} (hc : c.2 ≠ 0) (hlt : ∀ d ∈ m, c.1 < d.1) (h : Memory.wf m) :
    Memory.wf (c :: m) :=
  ⟨List.pairwise_cons.mpr ⟨hlt, h.1⟩, fun d hd => by
    rcases List.mem_cons.mp hd with rfl | hd
    · exact hc
    · exact h.2 d hd⟩

/-- In a canonical memory the word written is read back. -/
theorem memGet_memSet_self {m : Memory} (h : m.wf) (a : Nat) (v : Word) : memGet (memSet m a v) a = v := by
  induction m with
  | nil =>
    unfold memSet
    split <;> simp_all [memGet]
  | cons c m ih =>
    obtain ⟨k, u⟩ := c
    have hlt := (wf_head h).2
    unfold memSet
    split
    · rename_i hak
      split
      · rename_i hv
        rw [hv]
        refine memGet_of_lt fun d hd => ?_
        rcases List.mem_cons.mp hd with rfl | hd
        · exact hak
        · exact Nat.lt_trans hak (hlt d hd)
      · simp [memGet]
    · split
      · rename_i hk
        split
        · rename_i hv
          rw [hv]
          exact memGet_of_lt fun d hd => hk ▸ hlt d hd
        · simp [memGet]
      · rename_i hne
        simp [memGet, hne, ih (wf_tail h)]

/-- The addresses listed after a write are those listed before and the one written. -/
theorem listed_memSet {m : Memory} {a : Nat} {v : Word} {c : Nat × Word} (hc : c ∈ memSet m a v) :
    c.1 = a ∨ c ∈ m := by
  induction m with
  | nil =>
    unfold memSet at hc
    split at hc <;> simp_all
  | cons d m ih =>
    obtain ⟨k, u⟩ := d
    unfold memSet at hc
    split at hc
    · split at hc
      · exact .inr hc
      · rcases List.mem_cons.mp hc with rfl | hc
        · exact .inl rfl
        · exact .inr hc
    · split at hc
      · split at hc
        · exact .inr (List.mem_cons_of_mem _ hc)
        · rcases List.mem_cons.mp hc with rfl | hc
          · exact .inl rfl
          · exact .inr (List.mem_cons_of_mem _ hc)
      · rcases List.mem_cons.mp hc with rfl | hc
        · exact .inr List.mem_cons_self
        · exact (ih hc).imp id (List.mem_cons_of_mem _)

/-- A write keeps the canonical form. -/
theorem wf_memSet {m : Memory} (h : m.wf) (a : Nat) (v : Word) : (memSet m a v).wf := by
  induction m with
  | nil =>
    unfold memSet
    split
    · exact h
    · exact wf_cons (by assumption) (by simp) h
  | cons c m ih =>
    obtain ⟨k, u⟩ := c
    obtain ⟨hu, hlt⟩ := wf_head h
    unfold memSet
    split
    · rename_i hak
      split
      · exact h
      · refine wf_cons (by assumption) (fun d hd => ?_) h
        rcases List.mem_cons.mp hd with rfl | hd
        · exact hak
        · exact Nat.lt_trans hak (hlt d hd)
    · split
      · rename_i hk
        split
        · exact wf_tail h
        · exact wf_cons (by assumption) (fun d hd => hk ▸ hlt d hd) (wf_tail h)
      · refine wf_cons hu (fun d hd => ?_) (ih (wf_tail h))
        rcases listed_memSet hd with hd | hd
        · dsimp only at *
          omega
        · exact hlt d hd

/-- A cell of a canonical memory is read as listed. -/
theorem memGet_of_mem {m : Memory} (h : m.wf) {c : Nat × Word} (hc : c ∈ m) : memGet m c.1 = c.2 := by
  induction m with
  | nil => simp at hc
  | cons d m ih =>
    rcases List.mem_cons.mp hc with rfl | hm
    · simp [memGet]
    · have := (wf_head h).2 c hm
      rw [memGet, if_neg (by omega), ih (wf_tail h) hm]

/-- A program's cells lie at or above the address it is placed from, and below its end. -/
theorem listed_programCells {a : Nat} {p : List Word} {c : Nat × Word} (hc : c ∈ programCells a p) :
    a ≤ c.1 ∧ c.1 < a + p.length := by
  induction p generalizing a with
  | nil => simp [programCells] at hc
  | cons v vs ih =>
    unfold programCells at hc
    simp only [List.length_cons]
    split at hc
    · have := ih hc
      omega
    · rcases List.mem_cons.mp hc with rfl | hc
      · dsimp only
        omega
      · have := ih hc
        omega

/-- Construction gives a canonical memory. -/
theorem wf_programCells (a : Nat) (p : List Word) : (programCells a p).wf := by
  induction p generalizing a with
  | nil => exact ⟨List.Pairwise.nil, by simp [programCells]⟩
  | cons v vs ih =>
    unfold programCells
    split
    · exact ih (a + 1)
    · exact wf_cons (by assumption) (fun d hd => (listed_programCells hd).1) (ih (a + 1))

end Sys2Proof.Machine
end

