-- ==== Sys2Proof/Laws/Ops.lean ====
section
/-!
SUPPORT. One lemma per shared operation that says everything it can do.
-/

namespace Sys2Proof.Machine

@[simp] theorem andThen_ok {α β : Type} (a : α) (s : State) (f : α → State → Res β) :
    andThen (.ok a s) f = f a s := rfl

@[simp] theorem andThen_raise {α β : Type} (c : Cause) (s : State) (f : α → State → Res β) :
    andThen (.raise c s) f = .raise c s := rfl

@[simp] theorem finish_ok (s : State) : finish (.ok () s) = .next s := rfl

@[simp] theorem finish_raise (c : Cause) (s : State) : finish (.raise c s) = .next (takeFault .core c s) := rfl

/-- The address check answers the address, or the fault of R52. -/
theorem checkAddr_eq (s : State) (a : Int) :
    checkAddr s.cfg.memCapacity a =
      match addrFault s a with
      | none => .ok a.toNat
      | some c => .error c := by
  unfold checkAddr addrFault
  split
  · rfl
  · split <;> rfl

/-- A read answers the cell and grows the extent, or raises and changes nothing. -/
theorem memRead_eq (a : Int) (s : State) :
    memRead a s =
      match addrFault s a with
      | none => .ok (memGet s.mem a.toNat) { s with ext := extTouch s.ext a.toNat }
      | some c => .raise c s := by
  unfold memRead
  rw [checkAddr_eq]
  cases addrFault s a <;> simp only [grow_eq]

/-- A write changes the cell and grows the extent, or raises and changes nothing. -/
theorem memWrite_eq (a : Int) (v : Word) (s : State) :
    memWrite a v s =
      match addrFault s a with
      | none => .ok () { s with mem := memSet s.mem a.toNat v, ext := extTouch s.ext a.toNat }
      | some c => .raise c s := by
  unfold memWrite
  rw [checkAddr_eq]
  cases addrFault s a <;> simp only [store_eq]

/-- An address without a fault is one of the existing cells. -/
theorem addrFault_none {s : State} {a : Int} (h : addrFault s a = none) :
    0 ≤ a ∧ a < s.cfg.memCapacity := by
  unfold addrFault at h
  split at h
  · simp at h
  · split at h
    · simp at h
    · omega

/-- The check does not depend on the extent. -/
@[simp] theorem addrFault_ext (s : State) (e : Nat) (a : Int) : addrFault { s with ext := e } a = addrFault s a := rfl

/-- An address fault is legal in a record of either origin. -/
theorem addrFault_legal {s : State} {a : Int} {c : Cause} (h : addrFault s a = some c) (o : Origin) :
    causeLegal s.cfg.memCapacity o c := by
  unfold addrFault at h
  split at h
  · cases h
    assumption
  · split at h
    · cases h
      assumption
    · simp at h

theorem inWord_toInt (v : Word) : InWord v.toInt := by
  have h1 := v.toInt_lt
  have h2 := v.le_toInt
  unfold InWord wordMin wordMax
  omega

/-- A result that is the value of a word passes the check unchanged. -/
theorem checked64_of_toInt (r : Word) (s : State) : checked64 r.toInt s = .ok r s := by
  have h := inWord_toInt r
  unfold checked64
  rw [if_neg (by unfold InWord at h; omega), BitVec.ofInt_toInt]

/-- Any other result raises ArithmeticOverflow with the exact value. -/
theorem checked64_overflow {v : Int} (h : ¬ InWord v) (s : State) :
    checked64 v s = .raise (.arithmeticOverflow v) s := by
  unfold checked64
  rw [if_pos (by unfold InWord at h; omega)]

/-- An exact result in range is the value of some word. -/
theorem exists_word {v : Int} (h : InWord v) : ∃ r : Word, r.toInt = v := by
  refine ⟨BitVec.ofInt 64 v, ?_⟩
  unfold InWord wordMin wordMax at h
  rw [BitVec.toInt_ofInt, Int.bmod_eq_of_le (by omega) (by omega)]

end Sys2Proof.Machine
end

