-- ==== Sys2Proof/Laws/Decode.lean ====
section
/-!
SUPPORT. What the decoder's parts answer, and that every fault of the decoder is one the table of faults admits.
-/

namespace Sys2Proof

theorem dec_lt (w k : Nat) : dec w k < 10 := Nat.mod_lt _ (by omega)

/-- A digit names a mode exactly when it is that mode's digit. -/
theorem modeOfDigit_eq_some {d : Nat} {m : Mode} : modeOfDigit d = some m ↔ d = digitOfMode m := by
  unfold modeOfDigit digitOfMode
  split <;> cases m <;> simp_all

/-- A digit names no mode exactly when it is 3 or more. -/
theorem modeOfDigit_eq_none {d : Nat} : modeOfDigit d = none ↔ 3 ≤ d := by
  unfold modeOfDigit
  split <;> simp_all
  omega

theorem modeAt_ok {w k : Nat} {m : Mode} : modeAt w k = .ok m ↔ dec w (k + 1) = digitOfMode m := by
  unfold modeAt
  split
  · rename_i m' hm
    rw [modeOfDigit_eq_some] at hm
    rw [hm, Except.ok.injEq]
    constructor
    · rintro rfl
      rfl
    · cases m <;> cases m' <;> simp [digitOfMode]
  · rename_i hm
    rw [modeOfDigit_eq_none] at hm
    constructor
    · simp
    · intro h
      rw [h] at hm
      cases m <;> simp [digitOfMode] at hm

theorem modeAt_error {w k : Nat} {c : Cause} :
    modeAt w k = .error c ↔ 3 ≤ dec w (k + 1) ∧ c = .invalidParameterMode k (dec w (k + 1)) := by
  unfold modeAt
  split
  · rename_i m hm
    rw [modeOfDigit_eq_some] at hm
    constructor
    · simp
    · rintro ⟨h, -⟩
      rw [hm] at h
      cases m <;> simp [digitOfMode] at h
  · rename_i hm
    rw [modeOfDigit_eq_none] at hm
    constructor
    · intro h
      cases h
      exact ⟨hm, rfl⟩
    · rintro ⟨-, rfl⟩
      rfl

/-- The opcode map is the inverse of the opcodes: an opcode names `mk` exactly when it is the opcode of what `mk`
makes. -/
theorem instrOfOpcode_some {n : Nat} {mk : Mode → Mode → Mode → Instr} (h : instrOfOpcode n = some mk)
    (m1 m2 m3 : Mode) : opcodeOf (mk m1 m2 m3) = n ∧ modesOf (mk m1 m2 m3) = (m1, m2, m3) := by
  unfold instrOfOpcode at h
  split at h <;> cases h <;> exact ⟨rfl, rfl⟩

theorem instrOfOpcode_opcodeOf (i : Instr) :
    ∃ mk, instrOfOpcode (opcodeOf i) = some mk ∧ i = mk (modesOf i).1 (modesOf i).2.1 (modesOf i).2.2 := by
  cases i <;> exact ⟨_, rfl, rfl⟩

theorem instrOfOpcode_eq_none {n : Nat} :
    instrOfOpcode n = none ↔ n ∉ [1, 2, 3, 4, 5, 6, 7, 8, 9, 99] := by
  unfold instrOfOpcode
  split <;> simp_all

theorem writeParameter_position {i : Instr} {k : Nat} {m : Mode} (h : writeParameter i = some (k, m)) :
    k = 1 ∨ k = 3 := by
  cases i <;> simp_all [writeParameter]

/-- The write-target check passes exactly the well-formed instructions. -/
theorem checkWriteTarget_ok {i j : Instr} : checkWriteTarget i = .ok j ↔ i.wellFormed = true ∧ i = j := by
  unfold checkWriteTarget
  cases i <;> rename_i m1 m2 m3 <;> cases m1 <;> cases m3 <;> simp [writeParameter, Instr.wellFormed]

theorem checkWriteTarget_error {i : Instr} {c : Cause} (h : checkWriteTarget i = .error c) :
    ∃ k, writeParameter i = some (k, .immediate) ∧ c = .immediateWriteTarget k := by
  unfold checkWriteTarget at h
  split at h
  · rename_i k hk
    cases h
    exact ⟨k, hk, rfl⟩
  · cases h

/-- What a word that decodes is made of. -/
theorem decode_ok {w : Word} {i : Instr} :
    decode w = .ok i ↔
      0 ≤ w.toInt ∧ w.toNat < 100000 ∧ i.wellFormed = true ∧ w.toNat % 100 = opcodeOf i ∧
        dec w.toNat 2 = digitOfMode (modesOf i).1 ∧ dec w.toNat 3 = digitOfMode (modesOf i).2.1 ∧
        dec w.toNat 4 = digitOfMode (modesOf i).2.2 := by
  unfold decode
  by_cases hneg : w.toInt < 0
  · rw [if_pos hneg]
    constructor
    · simp
    · rintro ⟨h, -⟩
      omega
  rw [if_neg hneg]
  constructor
  · intro h
    split at h
    · cases h
    rename_i mk hmk
    unfold decodeModes at h
    split at h
    · cases h
    rename_i m1 h1
    split at h
    · cases h
    rename_i m2 h2
    split at h
    · cases h
    rename_i m3 h3
    split at h
    · cases h
    rename_i hlt
    obtain ⟨hwf, rfl⟩ := checkWriteTarget_ok.mp h
    obtain ⟨ho, hm⟩ := instrOfOpcode_some hmk m1 m2 m3
    rw [modeAt_ok] at h1 h2 h3
    rw [ho, hm]
    exact ⟨by omega, by omega, hwf, rfl, h1, h2, h3⟩
  · rintro ⟨-, hlt, hwf, hop, h1, h2, h3⟩
    obtain ⟨mk, hmk, hi⟩ := instrOfOpcode_opcodeOf i
    rw [hop, hmk]
    simp only [decodeModes, modeAt_ok.mpr h1, modeAt_ok.mpr h2, modeAt_ok.mpr h3, ← hi]
    rw [if_neg (by omega)]
    exact checkWriteTarget_ok.mpr ⟨hwf, rfl⟩

/-- Every fault of the decoder is one of the table of faults, for a fault the core raises. -/
theorem decode_error_legal {w : Word} {c : Cause} (h : decode w = .error c) (capacity : Nat) :
    Machine.causeLegal capacity .core c := by
  unfold decode at h
  split at h
  · rename_i hneg
    cases h
    exact ⟨rfl, .inl hneg⟩
  split at h
  · rename_i hop
    cases h
    exact ⟨rfl, .inr hop⟩
  unfold decodeModes at h
  split at h
  · rename_i h1
    cases h
    obtain ⟨hd, rfl⟩ := modeAt_error.mp h1
    exact ⟨rfl, .inl ⟨by omega, by omega, hd, Nat.le_of_lt_succ (dec_lt _ _)⟩⟩
  split at h
  · rename_i h2
    cases h
    obtain ⟨hd, rfl⟩ := modeAt_error.mp h2
    exact ⟨rfl, .inl ⟨by omega, by omega, hd, Nat.le_of_lt_succ (dec_lt _ _)⟩⟩
  split at h
  · rename_i h3
    cases h
    obtain ⟨hd, rfl⟩ := modeAt_error.mp h3
    exact ⟨rfl, .inl ⟨by omega, by omega, hd, Nat.le_of_lt_succ (dec_lt _ _)⟩⟩
  split at h
  · rename_i hge
    cases h
    exact ⟨rfl, .inr ⟨rfl, (Nat.le_div_iff_mul_le (by omega)).mpr (by omega)⟩⟩
  · obtain ⟨k, hk, rfl⟩ := checkWriteTarget_error h
    exact ⟨rfl, writeParameter_position hk⟩

/-- The decimal value of an instruction word, below 100000. -/
theorem encodeNat_lt (i : Instr) : encodeNat i < 100000 := by
  cases i <;> rename_i m1 m2 m3 <;> cases m1 <;> cases m2 <;> cases m3 <;> decide

theorem encode_toNat (i : Instr) : (encode i).toNat = encodeNat i := by
  have := encodeNat_lt i
  unfold encode
  rw [BitVec.toNat_ofNat]
  omega

end Sys2Proof
end

