-- ==== Sys2Proof/Laws/Operands.lean ====
section
/-!
SUPPORT. What fetching and resolving a parameter does, stated from the state the instruction starts in: the reads of
earlier parameters change only the extent, on which no operand depends (10_state.md R26).
-/

namespace Sys2Proof.Machine

@[simp] theorem rawAt_ext (s : State) (e k : Nat) : rawAt { s with ext := e } k = rawAt s k := rfl

@[simp] theorem operandAddr_ext (s : State) (e k : Nat) (m : Mode) :
    operandAddr { s with ext := e } k m = operandAddr s k m := rfl

@[simp] theorem readFault_ext (s : State) (e k : Nat) (m : Mode) :
    readFault { s with ext := e } k m = readFault s k m := rfl

@[simp] theorem writeFault_ext (s : State) (e k : Nat) (m : Mode) :
    writeFault { s with ext := e } k m = writeFault s k m := rfl

@[simp] theorem operandValue_ext (s : State) (e k : Nat) (m : Mode) :
    operandValue { s with ext := e } k m = operandValue s k m := rfl

/-- The raw fetch answers the parameter word, or raises and changes nothing. -/
theorem fetchRaw_eq (s : State) (e k : Nat) :
    fetchRaw k { s with ext := e } =
      match addrFault s ((s.pc : Int) + k) with
      | none => .ok (rawAt s k) { s with ext := extTouch e (s.pc + k) }
      | some c => .raise c { s with ext := e } := by
  unfold fetchRaw
  rw [memRead_eq]
  have h : ((s.pc : Int) + k).toNat = s.pc + k := by omega
  simp only [addrFault_ext, h]
  rfl

/-- A read parameter without a fault answers its value and grows the extent. -/
theorem readParam_ok {s : State} {k : Nat} {m : Mode} (h : readFault s k m = none) (e : Nat) :
    readParam k m { s with ext := e } = .ok (operandValue s k m) { s with ext := extParam s k m e } := by
  unfold readFault at h
  unfold readParam operandValue extParam
  rw [fetchRaw_eq]
  cases hf : addrFault s ((s.pc : Int) + k) with
  | some c => simp [hf] at h
  | none =>
    simp only [hf] at h
    simp only [andThen_ok, resolveRead]
    cases ha : operandAddr s k m with
    | none =>
      unfold operandAddr at ha
      simp only [ha]
    | some a =>
      simp only [ha] at h
      unfold operandAddr at ha
      simp only [ha, memRead_eq, addrFault_ext, h]

/-- A read parameter with a fault raises it, with nothing but the extent changed. -/
theorem readParam_raise {s : State} {k : Nat} {m : Mode} {c : Cause} (h : readFault s k m = some c) (e : Nat) :
    ∃ e', e ≤ e' ∧ readParam k m { s with ext := e } = .raise c { s with ext := e' } := by
  unfold readFault at h
  unfold readParam
  rw [fetchRaw_eq]
  cases hf : addrFault s ((s.pc : Int) + k) with
  | some d =>
    simp only [hf, Option.some.injEq] at h
    exact ⟨e, Nat.le_refl e, by simp [h]⟩
  | none =>
    simp only [hf] at h
    refine ⟨extTouch e (s.pc + k), le_extTouch _ _, ?_⟩
    simp only [andThen_ok, resolveRead]
    cases ha : operandAddr s k m with
    | none => simp [ha] at h
    | some a =>
      simp only [ha] at h
      unfold operandAddr at ha
      simp only [ha, memRead_eq, addrFault_ext, h]

/-- A write parameter without a fault answers the address it addresses and grows the extent by its fetch. -/
theorem writeParam_ok {s : State} {k : Nat} {m : Mode} (h : writeFault s k m = none) (e : Nat) :
    ∃ a : Int, operandAddr s k m = some a ∧ addrFault s a = none ∧
      writeParam k m { s with ext := e } = .ok a.toNat { s with ext := extTouch e (s.pc + k) } := by
  unfold writeFault at h
  unfold writeParam
  rw [fetchRaw_eq]
  cases hf : addrFault s ((s.pc : Int) + k) with
  | some c => simp [hf] at h
  | none =>
    simp only [hf] at h
    simp only [andThen_ok, resolveWrite]
    cases ha : operandAddr s k m with
    | none => simp [ha] at h
    | some a =>
      simp only [ha] at h
      refine ⟨a, rfl, h, ?_⟩
      unfold operandAddr at ha
      simp only [ha, checkAddr_eq s, h]

/-- A write parameter with a fault raises it, with nothing but the extent changed. -/
theorem writeParam_raise {s : State} {k : Nat} {m : Mode} {c : Cause} (h : writeFault s k m = some c) (e : Nat) :
    ∃ e', e ≤ e' ∧ writeParam k m { s with ext := e } = .raise c { s with ext := e' } := by
  unfold writeFault at h
  unfold writeParam
  rw [fetchRaw_eq]
  cases hf : addrFault s ((s.pc : Int) + k) with
  | some d =>
    simp only [hf, Option.some.injEq] at h
    exact ⟨e, Nat.le_refl e, by simp [h]⟩
  | none =>
    simp only [hf] at h
    refine ⟨extTouch e (s.pc + k), le_extTouch _ _, ?_⟩
    simp only [andThen_ok, resolveWrite]
    cases ha : operandAddr s k m with
    | none =>
      simp only [ha, Option.some.injEq] at h
      unfold operandAddr at ha
      simp only [ha, h]
    | some a =>
      simp only [ha] at h
      unfold operandAddr at ha
      simp only [ha, checkAddr_eq s, h]

theorem le_extParam (s : State) (k : Nat) (m : Mode) (e : Nat) : e ≤ extParam s k m e := by
  unfold extParam
  split
  · exact le_extTouch _ _
  · exact Nat.le_trans (le_extTouch _ _) (le_extTouch _ _)

end Sys2Proof.Machine
end

