-- ==== Sys2Proof/Laws/Exec.lean ====
section
/-!
SUPPORT. What the shared instruction shapes do, and one inversion lemma for exec: everything a completed, blocked or
faulting instruction can have done to the state.
-/

namespace Sys2Proof.Machine

/-! ### Bounds -/

theorem addrFault_bound {s : State} {a : Int} (h : addrFault s a = none) : a.toNat < s.cfg.memCapacity := by
  have := addrFault_none h
  omega

theorem readFault_fetch {s : State} {k : Nat} {m : Mode} (h : readFault s k m = none) :
    s.pc + k < s.cfg.memCapacity := by
  unfold readFault at h
  cases hf : addrFault s ((s.pc : Int) + k) with
  | some c => simp [hf] at h
  | none =>
    have := addrFault_none hf
    omega

theorem writeFault_fetch {s : State} {k : Nat} {m : Mode} (h : writeFault s k m = none) :
    s.pc + k < s.cfg.memCapacity := by
  unfold writeFault at h
  cases hf : addrFault s ((s.pc : Int) + k) with
  | some c => simp [hf] at h
  | none =>
    have := addrFault_none hf
    omega

theorem extParam_le {s : State} {k : Nat} {m : Mode} (h : readFault s k m = none) {e : Nat}
    (he : e ≤ s.cfg.memCapacity) : extParam s k m e ≤ s.cfg.memCapacity := by
  have hk := readFault_fetch h
  unfold extParam
  unfold readFault at h
  cases hf : addrFault s ((s.pc : Int) + k) with
  | some c => simp [hf] at h
  | none =>
    simp only [hf] at h
    split
    · exact extTouch_le he hk
    · rename_i a ha
      simp only [ha] at h
      exact extTouch_le (extTouch_le he hk) (addrFault_bound h)

theorem readFault_legal {s : State} {k : Nat} {m : Mode} {c : Cause} (h : readFault s k m = some c) (o : Origin) :
    causeLegal s.cfg.memCapacity o c := by
  unfold readFault at h
  split at h
  · rename_i hf
    cases h
    exact addrFault_legal hf o
  · split at h
    · simp at h
    · exact addrFault_legal h o

theorem writeFault_legal {s : State} {k : Nat} {m : Mode} {c : Cause} (hk : k = 1 ∨ k = 3)
    (h : writeFault s k m = some c) : causeLegal s.cfg.memCapacity .core c := by
  unfold writeFault at h
  split at h
  · rename_i hf
    cases h
    exact addrFault_legal hf _
  · split at h
    · cases h
      exact ⟨rfl, hk⟩
    · exact addrFault_legal h _

/-! ### A fault taken by an instruction -/

theorem finish_raise_taken {c : Cause} {s s' : State} {e : Nat} (h : s' = { s with ext := e }) (he : s.ext ≤ e) :
    ∃ t, finish (.raise c s') = .next t ∧ FaultTaken c s t :=
  ⟨_, rfl, e, he, by subst h; rfl⟩

/-! ### Format F3 -/

theorem threeOperandFault_none {s : State} {m1 m2 m3 : Mode} (h : threeOperandFault s m1 m2 m3 = none) :
    readFault s 1 m1 = none ∧ readFault s 2 m2 = none ∧ writeFault s 3 m3 = none := by
  unfold threeOperandFault at h
  cases h1 : readFault s 1 m1 <;> cases h2 : readFault s 2 m2 <;> simp_all

/-- With no parameter fault and a result, format F3 writes it and moves on. -/
theorem threeOperand_ok {f : Word → Word → State → Res Word} {s : State} {m1 m2 m3 : Mode} {r : Word}
    (h : threeOperandFault s m1 m2 m3 = none)
    (hf : ∀ s', f (operandValue s 1 m1) (operandValue s 2 m2) s' = .ok r s') :
    ∃ d : Int, operandAddr s 3 m3 = some d ∧ addrFault s d = none ∧
      threeOperand f m1 m2 m3 s =
        .next { s with mem := memSet s.mem d.toNat r, ext := extThree s m1 m2 m3, pc := s.pc + 4 } := by
  obtain ⟨h1, h2, h3⟩ := threeOperandFault_none h
  obtain ⟨d, hd, hd', hw⟩ := writeParam_ok h3 (extParam s 2 m2 (extParam s 1 m1 s.ext))
  refine ⟨d, hd, hd', ?_⟩
  unfold threeOperand extThree
  have e1 := readParam_ok h1 s.ext
  have e2 := readParam_ok h2 (extParam s 1 m1 s.ext)
  rw [e1]
  simp only [andThen_ok, e2, hw, hf, finish_ok, store_eq, advance]
  rw [extParam.eq_def s 3 m3]
  simp only [hd]

/-- A parameter fault of format F3 is taken. -/
theorem threeOperand_fault {f : Word → Word → State → Res Word} {s : State} {m1 m2 m3 : Mode} {c : Cause}
    (h : threeOperandFault s m1 m2 m3 = some c) :
    ∃ t, threeOperand f m1 m2 m3 s = .next t ∧ FaultTaken c s t := by
  unfold threeOperandFault at h
  unfold threeOperand
  cases h1 : readFault s 1 m1 with
  | some c1 =>
    obtain ⟨e, he, hr⟩ := readParam_raise h1 s.ext
    simp only [h1, Option.some.injEq] at h
    rw [hr, ← h]
    exact finish_raise_taken rfl he
  | none =>
    have hr1 := readParam_ok h1 s.ext
    have le1 := le_extParam s 1 m1 s.ext
    rw [hr1]
    simp only [h1] at h
    cases h2 : readFault s 2 m2 with
    | some c2 =>
      obtain ⟨e, he, hr⟩ := readParam_raise h2 (extParam s 1 m1 s.ext)
      simp only [h2, Option.some.injEq] at h
      simp only [andThen_ok, hr, ← h]
      exact finish_raise_taken rfl (Nat.le_trans le1 he)
    | none =>
      have hr2 := readParam_ok h2 (extParam s 1 m1 s.ext)
      have le2 := le_extParam s 2 m2 (extParam s 1 m1 s.ext)
      simp only [h2] at h
      obtain ⟨e, he, hr⟩ := writeParam_raise h (extParam s 2 m2 (extParam s 1 m1 s.ext))
      simp only [andThen_ok, hr2, hr]
      exact finish_raise_taken rfl (Nat.le_trans le1 (Nat.le_trans le2 he))

/-- A fault of format F3's computation is taken after all its parameters are resolved. -/
theorem threeOperand_raise {f : Word → Word → State → Res Word} {s : State} {m1 m2 m3 : Mode} {c : Cause}
    (h : threeOperandFault s m1 m2 m3 = none)
    (hf : ∀ s', f (operandValue s 1 m1) (operandValue s 2 m2) s' = .raise c s') :
    ∃ t, threeOperand f m1 m2 m3 s = .next t ∧ FaultTaken c s t := by
  obtain ⟨h1, h2, h3⟩ := threeOperandFault_none h
  obtain ⟨d, -, -, hw⟩ := writeParam_ok h3 (extParam s 2 m2 (extParam s 1 m1 s.ext))
  have e1 := readParam_ok h1 s.ext
  have e2 := readParam_ok h2 (extParam s 1 m1 s.ext)
  have le1 := le_extParam s 1 m1 s.ext
  have le2 := le_extParam s 2 m2 (extParam s 1 m1 s.ext)
  have le3 := le_extTouch (extParam s 2 m2 (extParam s 1 m1 s.ext)) (s.pc + 3)
  unfold threeOperand
  rw [e1]
  simp only [andThen_ok, e2, hw, hf]
  exact finish_raise_taken rfl (Nat.le_trans le1 (Nat.le_trans le2 le3))

/-! ### Format F2R -/

theorem twoOperandFault_none {s : State} {m1 m2 : Mode} (h : twoOperandFault s m1 m2 = none) :
    readFault s 1 m1 = none ∧ readFault s 2 m2 = none := by
  unfold twoOperandFault at h
  cases h1 : readFault s 1 m1 <;> simp_all

/-- A jump whose parameters resolve: taken to a target that is no negative number, taken to a negative one, or not
taken. -/
theorem conditionalJump_eq {taken : Word → Bool} {s : State} {m1 m2 : Mode}
    (h : twoOperandFault s m1 m2 = none) :
    conditionalJump taken m1 m2 s =
      if taken (operandValue s 1 m1) then
        if (operandValue s 2 m2).toInt < 0 then
          .next { takeFault .core (.negativeAddress (operandValue s 2 m2).toInt) s with ext := extTwo s m1 m2 }
        else .next { s with pc := (operandValue s 2 m2).toInt.toNat, ext := extTwo s m1 m2 }
      else .next { s with pc := s.pc + 3, ext := extTwo s m1 m2 } := by
  obtain ⟨h1, h2⟩ := twoOperandFault_none h
  have e1 := readParam_ok h1 s.ext
  have e2 := readParam_ok h2 (extParam s 1 m1 s.ext)
  unfold conditionalJump extTwo
  rw [e1]
  simp only [andThen_ok, e2]
  split
  · split <;> rfl
  · rfl

/-- A parameter fault of format F2R is taken, whether or not the jump would be. -/
theorem conditionalJump_fault {taken : Word → Bool} {s : State} {m1 m2 : Mode} {c : Cause}
    (h : twoOperandFault s m1 m2 = some c) :
    ∃ t, conditionalJump taken m1 m2 s = .next t ∧ FaultTaken c s t := by
  unfold twoOperandFault at h
  unfold conditionalJump
  cases h1 : readFault s 1 m1 with
  | some c1 =>
    obtain ⟨e, he, hr⟩ := readParam_raise h1 s.ext
    simp only [h1, Option.some.injEq] at h
    rw [hr, ← h]
    exact finish_raise_taken rfl he
  | none =>
    have hr1 := readParam_ok h1 s.ext
    simp only [h1] at h
    obtain ⟨e, he, hr⟩ := readParam_raise h (extParam s 1 m1 s.ext)
    rw [hr1]
    simp only [andThen_ok, hr]
    exact finish_raise_taken rfl (Nat.le_trans (le_extParam s 1 m1 s.ext) he)

/-! ### Format F1R -/

/-- A parameter without a fault gives its value to what the instruction does with it. -/
theorem oneOperand_eq {f : Word → State → Res Unit} {s : State} {m1 : Mode} (h : readFault s 1 m1 = none) :
    oneOperand f m1 s =
      finish (andThen (f (operandValue s 1 m1) { s with ext := extParam s 1 m1 s.ext })
        fun _ s2 => .ok () (advance 2 s2)) := by
  unfold oneOperand
  rw [readParam_ok h s.ext]
  rfl

/-- A parameter fault of format F1R is taken. -/
theorem oneOperand_fault {f : Word → State → Res Unit} {s : State} {m1 : Mode} {c : Cause}
    (h : readFault s 1 m1 = some c) :
    ∃ t, oneOperand f m1 s = .next t ∧ FaultTaken c s t := by
  obtain ⟨e, he, hr⟩ := readParam_raise h s.ext
  unfold oneOperand
  rw [hr]
  exact finish_raise_taken rfl he

end Sys2Proof.Machine
end

