-- ==== Sys2Proof/Laws/Effect.lean ====
section
/-!
SUPPORT. The inversion lemma of exec: everything an instruction can do to the state, said once, with the bounds the
invariant needs.
-/

namespace Sys2Proof.Machine

/-- What executing `i` in `s` can lead to. -/
inductive Effect (i : Instr) (s : State) : State → Prop where
  /-- A fault was taken; only the extent grew. -/
  | fault (c : Cause) (e : Nat) (le : s.ext ≤ e) (bound : s.ext ≤ s.cfg.memCapacity → e ≤ s.cfg.memCapacity)
      (legal : causeLegal s.cfg.memCapacity .core c) : Effect i s { takeFault .core c s with ext := e }
  /-- IN with no input: nothing changed. -/
  | blocked (op : opcodeOf i = 3) (empty : nextInput s = none) : Effect i s s
  /-- ADD, MUL, LT, EQ: one write. -/
  | wrote (d : Int) (v : Word) (e : Nat) (op : opcodeOf i = 1 ∨ opcodeOf i = 2 ∨ opcodeOf i = 7 ∨ opcodeOf i = 8)
      (addr : operandAddr s 3 (modesOf i).2.2 = some d) (legal : addrFault s d = none)
      (le : s.ext ≤ e) (lt : d.toNat < e) (bound : s.ext ≤ s.cfg.memCapacity → e ≤ s.cfg.memCapacity)
      (next : s.pc + 4 ≤ s.cfg.memCapacity) :
      Effect i s { s with mem := memSet s.mem d.toNat v, ext := e, pc := s.pc + 4 }
  /-- IN: one value received and written. -/
  | received (d : Int) (v : Word) (q : List Word) (e : Nat) (op : opcodeOf i = 3)
      (input : nextInput s = some (v, q)) (addr : operandAddr s 1 (modesOf i).1 = some d)
      (legal : addrFault s d = none)
      (le : s.ext ≤ e) (lt : d.toNat < e) (bound : s.ext ≤ s.cfg.memCapacity → e ≤ s.cfg.memCapacity)
      (next : s.pc + 2 ≤ s.cfg.memCapacity) :
      Effect i s { s with mem := memSet s.mem d.toNat v, ext := e, inq := q, pc := s.pc + 2 }
  /-- OUT: one value sent. -/
  | sent (v : Word) (e : Nat) (op : opcodeOf i = 4) (le : s.ext ≤ e)
      (bound : s.ext ≤ s.cfg.memCapacity → e ≤ s.cfg.memCapacity) (next : s.pc + 2 ≤ s.cfg.memCapacity) :
      Effect i s { s with outq := s.outq ++ [v], ext := e, pc := s.pc + 2 }
  /-- JT, JF: the program counter, and nothing else. -/
  | jumped (p e : Nat) (op : opcodeOf i = 5 ∨ opcodeOf i = 6) (le : s.ext ≤ e)
      (bound : s.ext ≤ s.cfg.memCapacity → e ≤ s.cfg.memCapacity)
      (next : p < maxCapacity ∨ (p = s.pc + 3 ∧ s.pc + 3 ≤ s.cfg.memCapacity)) :
      Effect i s { s with pc := p, ext := e }
  /-- ARB: the relative base. -/
  | rebased (r : Word) (e : Nat) (op : opcodeOf i = 9) (le : s.ext ≤ e)
      (bound : s.ext ≤ s.cfg.memCapacity → e ≤ s.cfg.memCapacity) (next : s.pc + 2 ≤ s.cfg.memCapacity) :
      Effect i s { s with rb := r, ext := e, pc := s.pc + 2 }
  /-- HALT. -/
  | halted (op : opcodeOf i = 99) : Effect i s { s with status := .halted, pc := s.pc + 1 }

/-! ### Bounds of a taken fault -/

/-- A raised fault is legal and has not grown the extent past the capacity. -/
def RaiseBounded (s : State) (o : Host.Outcome State Fault Refusal) : Prop :=
  ∃ c e, s.ext ≤ e ∧ (s.ext ≤ s.cfg.memCapacity → e ≤ s.cfg.memCapacity) ∧
    causeLegal s.cfg.memCapacity .core c ∧ o = .next { takeFault .core c s with ext := e }

theorem readParam_raise_bound {s s' : State} {k : Nat} {m : Mode} {c : Cause} {e : Nat}
    (h : readParam k m { s with ext := e } = .raise c s') (he : e ≤ s.cfg.memCapacity) :
    s'.ext ≤ s.cfg.memCapacity := by
  unfold readParam at h
  rw [fetchRaw_eq] at h
  cases hf : addrFault s ((s.pc : Int) + k) with
  | some d =>
    simp only [hf, andThen_raise, Res.raise.injEq] at h
    rw [← h.2]
    exact he
  | none =>
    have hb := addrFault_none hf
    have ht : extTouch e (s.pc + k) ≤ s.cfg.memCapacity := extTouch_le he (by omega)
    simp only [hf, andThen_ok, resolveRead] at h
    split at h
    · simp at h
    · rw [memRead_eq] at h
      split at h
      · simp at h
      · simp only [Res.raise.injEq] at h
        rw [← h.2]
        exact ht

theorem writeParam_raise_bound {s s' : State} {k : Nat} {m : Mode} {c : Cause} {e : Nat}
    (h : writeParam k m { s with ext := e } = .raise c s') (he : e ≤ s.cfg.memCapacity) :
    s'.ext ≤ s.cfg.memCapacity := by
  unfold writeParam at h
  rw [fetchRaw_eq] at h
  cases hf : addrFault s ((s.pc : Int) + k) with
  | some d =>
    simp only [hf, andThen_raise, Res.raise.injEq] at h
    rw [← h.2]
    exact he
  | none =>
    have hb := addrFault_none hf
    have ht : extTouch e (s.pc + k) ≤ s.cfg.memCapacity := extTouch_le he (by omega)
    simp only [hf, andThen_ok, resolveWrite] at h
    split at h
    · simp only [Res.raise.injEq] at h
      rw [← h.2]
      exact ht
    · split at h
      · simp only [Res.raise.injEq] at h
        rw [← h.2]
        exact ht
      · simp at h

theorem RaiseBounded.effect {i : Instr} {s : State} {o : Host.Outcome State Fault Refusal} (h : RaiseBounded s o) :
    ∃ t, o = .next t ∧ Effect i s t := by
  obtain ⟨c, e, h1, h2, h3, rfl⟩ := h
  exact ⟨_, rfl, .fault c e h1 h2 h3⟩

/-- A read parameter that raises, `e` the extent before it, ends the instruction in a bounded fault. -/
theorem raiseBounded_read {s : State} {k : Nat} {m : Mode} {c : Cause} {e : Nat} (h : readFault s k m = some c)
    (le : s.ext ≤ e) (bound : s.ext ≤ s.cfg.memCapacity → e ≤ s.cfg.memCapacity)
    (f : Word → State → Res Unit) :
    RaiseBounded s (finish (andThen (readParam k m { s with ext := e }) f)) := by
  obtain ⟨e', he, hr⟩ := readParam_raise h e
  refine ⟨c, e', Nat.le_trans le he, fun hc => ?_, readFault_legal h _, ?_⟩
  · exact readParam_raise_bound hr (bound hc)
  · rw [hr]
    rfl

/-- The same for a write parameter. -/
theorem raiseBounded_write {s : State} {k : Nat} {m : Mode} {c : Cause} {e : Nat} (hk : k = 1 ∨ k = 3)
    (h : writeFault s k m = some c)
    (le : s.ext ≤ e) (bound : s.ext ≤ s.cfg.memCapacity → e ≤ s.cfg.memCapacity)
    (f : Nat → State → Res Unit) :
    RaiseBounded s (finish (andThen (writeParam k m { s with ext := e }) f)) := by
  obtain ⟨e', he, hr⟩ := writeParam_raise h e
  refine ⟨c, e', Nat.le_trans le he, fun hc => ?_, writeFault_legal hk h, ?_⟩
  · exact writeParam_raise_bound hr (bound hc)
  · rw [hr]
    rfl

/-! ### The shapes -/

theorem writeFault_extParam_le {s : State} {k : Nat} {m : Mode} (h : writeFault s k m = none) {e : Nat}
    (he : e ≤ s.cfg.memCapacity) : extParam s k m e ≤ s.cfg.memCapacity := by
  obtain ⟨d, hd, hd', -⟩ := writeParam_ok h e
  unfold extParam
  simp only [hd]
  exact extTouch_le (extTouch_le he (writeFault_fetch h)) (addrFault_bound hd')

theorem lt_extParam {s : State} {k : Nat} {m : Mode} {d : Int} (h : operandAddr s k m = some d) (e : Nat) :
    d.toNat < extParam s k m e := by
  unfold extParam
  simp only [h]
  exact lt_extTouch _ _

theorem threeOperand_effect {f : Word → Word → State → Res Word} {i : Instr} {s : State} {m1 m2 m3 : Mode}
    (hm : (modesOf i).2.2 = m3)
    (op : opcodeOf i = 1 ∨ opcodeOf i = 2 ∨ opcodeOf i = 7 ∨ opcodeOf i = 8)
    (hf : ∀ v1 v2, (∃ r, ∀ s', f v1 v2 s' = .ok r s') ∨
      (∃ c, causeLegal s.cfg.memCapacity .core c ∧ ∀ s', f v1 v2 s' = .raise c s')) :
    ∃ t, threeOperand f m1 m2 m3 s = .next t ∧ Effect i s t := by
  cases h1 : readFault s 1 m1 with
  | some c1 => exact (raiseBounded_read h1 (Nat.le_refl _) id _).effect
  | none =>
    have b1 : s.ext ≤ s.cfg.memCapacity → extParam s 1 m1 s.ext ≤ s.cfg.memCapacity := extParam_le h1
    have l1 := le_extParam s 1 m1 s.ext
    have hr1 : readParam 1 m1 s = _ := readParam_ok h1 s.ext
    cases h2 : readFault s 2 m2 with
    | some c2 =>
      unfold threeOperand
      simp only [hr1, andThen_ok]
      exact (raiseBounded_read h2 l1 b1 _).effect
    | none =>
      have b2 := fun hc => extParam_le h2 (b1 hc)
      have l2 := Nat.le_trans l1 (le_extParam s 2 m2 (extParam s 1 m1 s.ext))
      have hr2 := readParam_ok h2 (extParam s 1 m1 s.ext)
      cases h3 : writeFault s 3 m3 with
      | some c3 =>
        unfold threeOperand
        simp only [hr1, hr2, andThen_ok]
        exact (raiseBounded_write (.inr rfl) h3 l2 b2 _).effect
      | none =>
        have hn : threeOperandFault s m1 m2 m3 = none := by
          unfold threeOperandFault
          simp only [h1, h2, h3]
        rcases hf (operandValue s 1 m1) (operandValue s 2 m2) with ⟨r, hr⟩ | ⟨c, hc, hr⟩
        · obtain ⟨d, hd, hd', he⟩ := threeOperand_ok hn hr
          rw [he]
          have := writeFault_fetch h3
          exact ⟨_, rfl, .wrote d r (extThree s m1 m2 m3) op (hm ▸ hd) hd'
            (Nat.le_trans l2 (le_extParam s 3 m3 _)) (lt_extParam hd _)
            (fun hc => writeFault_extParam_le h3 (b2 hc)) (by omega)⟩
        · obtain ⟨d, -, -, hw⟩ := writeParam_ok h3 (extParam s 2 m2 (extParam s 1 m1 s.ext))
          unfold threeOperand
          simp only [hr1, hr2, andThen_ok, hw, hr, andThen_raise, finish_raise]
          exact ⟨_, rfl, .fault c _ (Nat.le_trans l2 (le_extTouch _ _))
            (fun hcap => extTouch_le (b2 hcap) (writeFault_fetch h3)) hc⟩

theorem conditionalJump_effect {taken : Word → Bool} {i : Instr} {s : State} {m1 m2 : Mode}
    (op : opcodeOf i = 5 ∨ opcodeOf i = 6) :
    ∃ t, conditionalJump taken m1 m2 s = .next t ∧ Effect i s t := by
  cases h1 : readFault s 1 m1 with
  | some c1 => exact (raiseBounded_read h1 (Nat.le_refl _) id _).effect
  | none =>
    have b1 : s.ext ≤ s.cfg.memCapacity → extParam s 1 m1 s.ext ≤ s.cfg.memCapacity := extParam_le h1
    have l1 := le_extParam s 1 m1 s.ext
    have hr1 : readParam 1 m1 s = _ := readParam_ok h1 s.ext
    cases h2 : readFault s 2 m2 with
    | some c2 =>
      unfold conditionalJump
      simp only [hr1, andThen_ok]
      exact (raiseBounded_read h2 l1 b1 _).effect
    | none =>
      have b2 := fun hc => extParam_le h2 (b1 hc)
      have l2 := Nat.le_trans l1 (le_extParam s 2 m2 (extParam s 1 m1 s.ext))
      have hn : twoOperandFault s m1 m2 = none := by
        unfold twoOperandFault
        simp only [h1, h2]
      have hk := readFault_fetch h2
      have ht := (operandValue s 2 m2).toInt_lt
      rw [conditionalJump_eq hn]
      split
      · split
        · exact ⟨_, rfl, .fault _ _ l2 b2 (by assumption)⟩
        · exact ⟨_, rfl, .jumped _ _ op l2 b2 (.inl (by unfold maxCapacity; omega))⟩
      · exact ⟨_, rfl, .jumped _ _ op l2 b2 (.inr ⟨rfl, by omega⟩)⟩

theorem checked64_cases (v : Int) :
    (∃ r, ∀ s, checked64 v s = .ok r s) ∨
      (¬ InWord v ∧ ∀ s, checked64 v s = .raise (.arithmeticOverflow v) s) := by
  by_cases h : InWord v
  · obtain ⟨r, rfl⟩ := exists_word h
    exact .inl ⟨r, checked64_of_toInt r⟩
  · exact .inr ⟨h, checked64_overflow h⟩

/-- Every instruction answers a next state, and it is one of the effects. -/
theorem exec_effect (i : Instr) (s : State) : ∃ t, exec i s = .next t ∧ Effect i s t := by
  have arith : ∀ v : Int, (∃ r, ∀ s', checked64 v s' = .ok r s') ∨
      (∃ c, causeLegal s.cfg.memCapacity .core c ∧ ∀ s', checked64 v s' = .raise c s') := fun v =>
    (checked64_cases v).imp id fun ⟨hv, hr⟩ => ⟨.arithmeticOverflow v, ⟨rfl, hv⟩, hr⟩
  cases i with
  | add m1 m2 m3 => exact threeOperand_effect rfl (by simp [opcodeOf]) fun _ _ => arith _
  | mul m1 m2 m3 => exact threeOperand_effect rfl (by simp [opcodeOf]) fun _ _ => arith _
  | lessThan m1 m2 m3 => exact threeOperand_effect rfl (by simp [opcodeOf]) fun _ _ => .inl ⟨_, fun _ => rfl⟩
  | equals m1 m2 m3 => exact threeOperand_effect rfl (by simp [opcodeOf]) fun _ _ => .inl ⟨_, fun _ => rfl⟩
  | jumpIfTrue m1 m2 m3 => exact conditionalJump_effect (by simp [opcodeOf])
  | jumpIfFalse m1 m2 m3 => exact conditionalJump_effect (by simp [opcodeOf])
  | halt m1 m2 m3 => exact ⟨_, rfl, .halted rfl⟩
  | input m1 m2 m3 =>
    show ∃ t, execInput m1 s = .next t ∧ _
    unfold execInput
    cases hq : nextInput s with
    | none => exact ⟨s, rfl, .blocked rfl hq⟩
    | some p =>
      obtain ⟨v, q⟩ := p
      cases h : writeFault s 1 m1 with
      | some c => exact (raiseBounded_write (.inl rfl) h (Nat.le_refl _) id _).effect
      | none =>
        obtain ⟨d, hd, hd', hw⟩ := writeParam_ok h s.ext
        have hw : writeParam 1 m1 s = _ := hw
        have hx : extTouch (extTouch s.ext (s.pc + 1)) d.toNat = extParam s 1 m1 s.ext := by
          unfold extParam
          simp only [hd]
        simp only [hw, andThen_ok, finish_ok, store_eq, advance, hx]
        have := writeFault_fetch h
        exact ⟨_, rfl, .received d v q _ rfl hq hd hd' (le_extParam _ _ _ _) (lt_extParam hd _)
          (writeFault_extParam_le h) (by omega)⟩
  | output m1 m2 m3 =>
    show ∃ t, execOutput m1 s = .next t ∧ _
    cases h : readFault s 1 m1 with
    | some c => exact (raiseBounded_read h (Nat.le_refl _) id _).effect
    | none =>
      unfold execOutput
      have := readFault_fetch h
      rw [oneOperand_eq h]
      exact ⟨_, rfl, .sent _ _ rfl (le_extParam _ _ _ _) (extParam_le h) (by omega)⟩
  | adjustBase m1 m2 m3 =>
    show ∃ t, execAdjustBase m1 s = .next t ∧ _
    cases h : readFault s 1 m1 with
    | some c => exact (raiseBounded_read h (Nat.le_refl _) id _).effect
    | none =>
      unfold execAdjustBase
      have := readFault_fetch h
      rw [oneOperand_eq h]
      rcases checked64_cases (s.rb.toInt + (operandValue s 1 m1).toInt) with ⟨r, hr⟩ | ⟨hv, hr⟩
      · simp only [hr, andThen_ok]
        exact ⟨_, rfl, .rebased r _ rfl (le_extParam _ _ _ _) (extParam_le h) (by omega)⟩
      · simp only [hr, andThen_raise]
        exact ⟨_, rfl, .fault (.arithmeticOverflow _) _ (le_extParam _ _ _ _) (extParam_le h) ⟨rfl, hv⟩⟩

theorem exec_cases {i : Instr} {s t : State} (h : exec i s = .next t) : Effect i s t := by
  obtain ⟨t', ht, he⟩ := exec_effect i s
  rw [ht] at h
  cases h
  exact he

end Sys2Proof.Machine
end

