-- ==== Sys2Proof/Laws/Step.lean ====
section
/-!
SUPPORT. What a step can do: the fetch, and the inversion of a step into a taken fault of the fetch or the decoder, or
one effect of the fetched instruction.
-/

namespace Sys2Proof.Machine

/-- The fetch answers the decoded instruction with the extent grown, or raises (40_execution_cycle.md R123, R124). -/
theorem fetchInstr_eq (s : State) :
    fetchInstr s =
      match addrFault s s.pc with
      | some c => .raise c s
      | none =>
        match decode (memGet s.mem s.pc) with
        | .ok i => .ok i { s with ext := extTouch s.ext s.pc }
        | .error c => .raise c { s with ext := extTouch s.ext s.pc } := by
  unfold fetchInstr
  rw [memRead_eq]
  cases addrFault s s.pc <;> rfl

/-- A Runnable core fetches, and executes what it fetched or takes the fault (40_execution_cycle.md R122). -/
theorem step_runnable {s : State} (h : s.status = .runnable) :
    step s =
      match fetchInstr s with
      | .ok i s1 => exec i s1
      | .raise c s1 => .next (takeFault .core c s1) := by
  cases s
  subst h
  rfl

/-- What a step that answers a next state did. -/
theorem step_cases {s t : State} (h : step s = .next t) :
    s.status = .runnable ∧
      ((∃ c e, s.ext ≤ e ∧ (s.ext ≤ s.cfg.memCapacity → e ≤ s.cfg.memCapacity) ∧
          causeLegal s.cfg.memCapacity .core c ∧ t = { takeFault .core c s with ext := e }) ∨
        ∃ i, addrFault s s.pc = none ∧ decode (memGet s.mem s.pc) = .ok i ∧
          Effect i { s with ext := extTouch s.ext s.pc } t) := by
  unfold step at h
  split at h
  · cases h
  · cases h
  rename_i hs
  refine ⟨hs, ?_⟩
  rw [fetchInstr_eq] at h
  cases hf : addrFault s s.pc with
  | some c =>
    simp only [hf, Host.Outcome.next.injEq] at h
    exact .inl ⟨c, s.ext, Nat.le_refl _, id, addrFault_legal hf _, h.symm⟩
  | none =>
    have hb := addrFault_bound hf
    simp only [hf] at h
    cases hd : decode (memGet s.mem s.pc) with
    | error c =>
      simp only [hd, Host.Outcome.next.injEq] at h
      exact .inl ⟨c, _, le_extTouch _ _, fun hc => extTouch_le hc (by omega), decode_error_legal hd _, h.symm⟩
    | ok i =>
      simp only [hd] at h
      exact .inr ⟨i, rfl, rfl, exec_cases h⟩

/-- A Runnable core always answers a next state: no step of it is refused. -/
theorem step_next {s : State} (h : s.status = .runnable) : ∃ t, step s = .next t := by
  unfold step
  simp only [h]
  split
  · rename_i i s1 _
    obtain ⟨t, ht, -⟩ := exec_effect i s1
    exact ⟨t, ht⟩
  · exact ⟨_, rfl⟩

end Sys2Proof.Machine
end

