-- ==== Sys2Proof/Laws/Extent.lean ====
section
/-!
SUPPORT. No operation of an instruction depends on the extent but through the extent it leaves (10_state.md R26).
-/

namespace Sys2Proof.Machine

/-- The same answer, its state with another extent. -/
def withExt {α : Type} (r : Res α) (e : Nat) : Res α :=
  match r with
  | .ok a s => .ok a { s with ext := e }
  | .raise c s => .raise c { s with ext := e }

/-- The operation answers the same from any extent, up to the extent it leaves. -/
def ExtFree {α : Type} (f : State → Res α) : Prop :=
  ∀ s e, ∃ e', f { s with ext := e } = withExt (f s) e'

theorem ExtFree.andThen {α β : Type} {f : State → Res α} {g : α → State → Res β} (hf : ExtFree f)
    (hg : ∀ a, ExtFree (g a)) : ExtFree fun s => Machine.andThen (f s) g := by
  intro s e
  obtain ⟨e1, h1⟩ := hf s e
  simp only [h1]
  cases f s with
  | ok a s1 => exact hg a s1 e1
  | raise c s1 => exact ⟨e1, rfl⟩

theorem extFree_memRead (a : Int) : ExtFree (memRead a) := by
  intro s e
  simp only [memRead_eq, addrFault_ext]
  cases addrFault s a with
  | none => exact ⟨extTouch e a.toNat, rfl⟩
  | some c => exact ⟨e, rfl⟩

theorem extFree_memWrite (a : Int) (v : Word) : ExtFree (memWrite a v) := by
  intro s e
  simp only [memWrite_eq, addrFault_ext]
  cases addrFault s a with
  | none => exact ⟨extTouch e a.toNat, rfl⟩
  | some c => exact ⟨e, rfl⟩

theorem extFree_readParam (k : Nat) (m : Mode) : ExtFree (readParam k m) := by
  refine ExtFree.andThen (fun s e => extFree_memRead ((s.pc : Int) + k) s e) fun raw s e => ?_
  unfold resolveRead
  simp only
  split
  · exact ⟨e, rfl⟩
  · exact extFree_memRead _ s e

theorem extFree_writeParam (k : Nat) (m : Mode) : ExtFree (writeParam k m) := by
  refine ExtFree.andThen (fun s e => extFree_memRead ((s.pc : Int) + k) s e) fun raw s e => ?_
  unfold resolveWrite
  simp only
  split
  · exact ⟨e, rfl⟩
  · split <;> exact ⟨e, rfl⟩

theorem extFree_checked64 (v : Int) : ExtFree (checked64 v) := by
  intro s e
  unfold checked64
  split <;> exact ⟨e, rfl⟩

/-- An update that keeps the extent as a field of its own. -/
theorem extFree_commit (f : State → State) (h : ∀ s e, ∃ e', f { s with ext := e } = { f s with ext := e' }) :
    ExtFree fun s => .ok () (f s) := by
  intro s e
  obtain ⟨e', he⟩ := h s e
  exact ⟨e', by simp only [he, withExt]⟩

theorem finish_ext {f : State → Res Unit} (h : ExtFree f) (s : State) (e : Nat) :
    ∃ t e', finish (f s) = .next t ∧ finish (f { s with ext := e }) = .next { t with ext := e' } := by
  obtain ⟨e', he⟩ := h s e
  rw [he]
  cases f s with
  | ok a s1 => exact ⟨s1, e', rfl, rfl⟩
  | raise c s1 => exact ⟨takeFault .core c s1, e', rfl, rfl⟩

theorem threeOperand_ext {f : Word → Word → State → Res Word} (hf : ∀ v1 v2, ExtFree (f v1 v2)) (m1 m2 m3 : Mode)
    (s : State) (e : Nat) :
    ∃ t e', threeOperand f m1 m2 m3 s = .next t ∧
      threeOperand f m1 m2 m3 { s with ext := e } = .next { t with ext := e' } := by
  refine finish_ext (ExtFree.andThen (extFree_readParam 1 m1) fun v1 => ExtFree.andThen (extFree_readParam 2 m2) fun v2 =>
    ExtFree.andThen (extFree_writeParam 3 m3) fun d => ExtFree.andThen (hf v1 v2) fun r => ?_) s e
  refine extFree_commit _ fun s e => ⟨extTouch e d, ?_⟩
  simp only [store_eq, advance]

theorem oneOperand_ext {f : Word → State → Res Unit} (hf : ∀ v, ExtFree (f v)) (m1 : Mode) (s : State) (e : Nat) :
    ∃ t e', oneOperand f m1 s = .next t ∧ oneOperand f m1 { s with ext := e } = .next { t with ext := e' } := by
  refine finish_ext (ExtFree.andThen (extFree_readParam 1 m1) fun v => ExtFree.andThen (hf v) fun _ => ?_) s e
  exact extFree_commit _ fun s e => ⟨e, rfl⟩

theorem conditionalJump_ext (taken : Word → Bool) (m1 m2 : Mode) (s : State) (e : Nat) :
    ∃ t e', conditionalJump taken m1 m2 s = .next t ∧
      conditionalJump taken m1 m2 { s with ext := e } = .next { t with ext := e' } := by
  refine finish_ext (ExtFree.andThen (extFree_readParam 1 m1) fun v => ExtFree.andThen (extFree_readParam 2 m2)
    fun t => ?_) s e
  intro s e
  simp only
  split
  · split <;> exact ⟨e, rfl⟩
  · exact ⟨e, rfl⟩

/-- Every instruction answers the same from any extent, up to the extent it leaves. -/
theorem exec_ext (i : Instr) (s : State) (e : Nat) :
    ∃ t e', exec i s = .next t ∧ exec i { s with ext := e } = .next { t with ext := e' } := by
  cases i with
  | add m1 m2 m3 => exact threeOperand_ext (fun _ _ => extFree_checked64 _) m1 m2 m3 s e
  | mul m1 m2 m3 => exact threeOperand_ext (fun _ _ => extFree_checked64 _) m1 m2 m3 s e
  | lessThan m1 m2 m3 => exact threeOperand_ext (fun _ _ s e => ⟨e, rfl⟩) m1 m2 m3 s e
  | equals m1 m2 m3 => exact threeOperand_ext (fun _ _ s e => ⟨e, rfl⟩) m1 m2 m3 s e
  | jumpIfTrue m1 m2 m3 => exact conditionalJump_ext wordIsNonZero m1 m2 s e
  | jumpIfFalse m1 m2 m3 => exact conditionalJump_ext wordIsZero m1 m2 s e
  | output m1 m2 m3 => exact oneOperand_ext (fun _ => extFree_commit _ fun s e => ⟨e, rfl⟩) m1 s e
  | adjustBase m1 m2 m3 =>
    refine oneOperand_ext (fun v => ?_) m1 s e
    exact ExtFree.andThen (fun s e => extFree_checked64 (s.rb.toInt + v.toInt) s e) fun r s e => ⟨e, rfl⟩
  | halt m1 m2 m3 => exact ⟨_, e, rfl, rfl⟩
  | input m1 m2 m3 =>
    show ∃ t e', execInput m1 s = .next t ∧ execInput m1 { s with ext := e } = .next { t with ext := e' }
    unfold execInput
    have hn : nextInput { s with ext := e } = nextInput s := rfl
    rw [hn]
    cases nextInput s with
    | none => exact ⟨s, e, rfl, rfl⟩
    | some p =>
      refine finish_ext (f := fun s => andThen (writeParam 1 m1 s) fun d s1 =>
        .ok () (advance 2 (store d p.1 { s1 with inq := p.2 }))) (ExtFree.andThen (extFree_writeParam 1 m1)
        fun d => ?_) s e
      refine extFree_commit _ fun s e => ⟨extTouch e d, ?_⟩
      simp only [store_eq, advance]

/-- The fetch answers the same from any extent, up to the extent it leaves. -/
theorem extFree_fetchInstr : ExtFree fetchInstr := by
  refine ExtFree.andThen (fun s e => extFree_memRead (s.pc : Int) s e) fun w s e => ?_
  split <;> exact ⟨e, rfl⟩

end Sys2Proof.Machine
end

