-- ==== Sys2Proof/Laws/Flags.lean ====
section
/-!
SUPPORT. What the comparison word and the jump tests are.
-/

namespace Sys2Proof.Machine

theorem wordIsNonZero_iff (v : Word) : wordIsNonZero v = true ↔ v ≠ 0 := bne_iff_ne

theorem wordIsZero_iff (v : Word) : wordIsZero v = true ↔ v = 0 := beq_iff_eq

theorem boolWord_decide (p : Prop) [Decidable p] : boolWord (decide p) = if p then 1 else 0 := by
  unfold boolWord
  by_cases h : p <;> simp [h]

end Sys2Proof.Machine
end

