-- ==== Sys2Proof/Laws/HostPort.lean ====
section
/-!
SUPPORT. The shared operations of the host port: refusal on a Faulted instance, a reply that may take a fault, and when
input is available or awaited.
-/

namespace Sys2Proof.Machine

theorem unlessFaulted_acts {α : Type} {s : State} (h : s.status ≠ .faulted) (op : State → Reply α × State) :
    unlessFaulted s op = op s := by
  unfold unlessFaulted
  cases hs : s.status <;> simp_all

theorem unlessFaulted_refuses {α : Type} {s : State} (h : s.status = .faulted) (op : State → Reply α × State) :
    unlessFaulted s op = (.fault s.fault, s) := by
  unfold unlessFaulted
  simp only [h]

/-- No fixed value is in force under the policy `once`, nor where none was given (70_reset_and_hazards.md R251). -/
theorem alwaysInput_eq_none {cfg : Config} :
    alwaysInput cfg = none ↔ cfg.fixedInputPolicy = .once ∨ cfg.fixedInput = none := by
  unfold alwaysInput
  cases cfg.fixedInputPolicy <;> simp

/-- No input is available exactly when no fixed value is in force and the queue is empty. -/
theorem nextInput_eq_none {s : State} :
    nextInput s = none ↔ (s.cfg.fixedInputPolicy = .once ∨ s.cfg.fixedInput = none) ∧ s.inq = [] := by
  rw [← alwaysInput_eq_none]
  unfold nextInput
  cases alwaysInput s.cfg <;> cases s.inq <;> simp

/-- BlockedOnInput is the formula of 10_state.md R31. -/
theorem blockedOnInput_iff {s : State} :
    blockedOnInput s = true ↔ s.status = .runnable ∧ isInputAt s = true ∧ s.inq = [] := by
  unfold blockedOnInput
  simp [and_assoc]

/-- IsInputAt: the word at `pc`, read by `Peek`, decodes to opcode 3 (10_state.md R31). -/
theorem isInputAt_iff {s : State} : isInputAt s = true ↔ ∃ i, decode (peek s.pc s) = .ok i ∧ opcodeOf i = 3 := by
  unfold isInputAt
  cases decode (peek s.pc s) <;> simp

@[simp] theorem hostReply_ok {α : Type} (a : α) (s : State) : hostReply (.ok a s) = (.value a, s) := rfl

@[simp] theorem hostReply_raise {α : Type} (c : Cause) (s : State) :
    hostReply (α := α) (.raise c s) = (.fault (takeFault .host c s).fault, takeFault .host c s) := rfl

end Sys2Proof.Machine
end

