-- ==== Sys2Proof/Laws/Loader.lean ====
section
/-!
SUPPORT. What each function of the loader answers, and for which texts (30_encoding.md R98, R99).
-/

namespace Sys2Proof.Machine

/-- A character has a digit value exactly when it is that digit's character. -/
theorem digitValue_eq_some {c : Char} {d : Nat} : digitValue c = some d ↔ d < 10 ∧ c = Nat.digitChar d := by
  constructor
  · intro h
    unfold digitValue at h
    split at h
    · rename_i hc
      obtain rfl := Option.some.inj h
      refine ⟨by omega, ?_⟩
      have hn : c = Char.ofNat c.toNat := (Char.ofNat_toNat c).symm
      generalize c.toNat = n at hc hn
      subst hn
      obtain ⟨k, rfl⟩ : ∃ k, n = 48 + k := ⟨n - 48, by omega⟩
      have hk : k < 10 := by omega
      clear hc h
      revert hk k
      decide
    · cases h
  · rintro ⟨hd, rfl⟩
    revert hd d
    decide

/-- The value of a run of characters, `acc` that of the digits before it. -/
theorem digitsValue_eq_some {cs : List Char} {acc n : Nat} :
    digitsValue acc cs = some n ↔
      ∃ ds, cs = decimalText ds ∧ n = ds.foldl (fun n d => 10 * n + d.val) acc := by
  induction cs generalizing acc with
  | nil =>
    constructor
    · intro h; exact ⟨[], rfl, (Option.some.inj h).symm⟩
    · rintro ⟨ds, h, rfl⟩
      obtain rfl : ds = [] := List.map_eq_nil_iff.mp h.symm
      rfl
  | cons c cs ih =>
    unfold digitsValue
    constructor
    · intro h
      split at h
      · cases h
      · rename_i d hd
        obtain ⟨hlt, rfl⟩ := digitValue_eq_some.mp hd
        obtain ⟨ds, rfl, rfl⟩ := ih.mp h
        exact ⟨⟨d, hlt⟩ :: ds, rfl, rfl⟩
    · rintro ⟨ds, h, rfl⟩
      cases ds with
      | nil => cases h
      | cons d ds =>
        obtain ⟨rfl, rfl⟩ := List.cons.inj h
        rw [digitValue_eq_some.mpr ⟨d.isLt, rfl⟩]
        exact ih.mpr ⟨ds, rfl, rfl⟩

theorem naturalItem_eq_some {cs : List Char} {n : Nat} :
    naturalItem cs = some n ↔ ∃ ds, ds ≠ [] ∧ cs = decimalText ds ∧ n = decimalValue ds := by
  unfold naturalItem
  cases cs with
  | nil =>
    constructor
    · intro h; cases h
    · rintro ⟨ds, hne, h, -⟩
      exact absurd (List.map_eq_nil_iff.mp h.symm) hne
  | cons c cs =>
    show digitsValue 0 (c :: cs) = some n ↔ _
    rw [digitsValue_eq_some]
    constructor
    · rintro ⟨ds, h, hn⟩
      refine ⟨ds, ?_, h, hn⟩
      rintro rfl
      cases h
    · rintro ⟨ds, -, h, hn⟩
      exact ⟨ds, h, hn⟩

theorem digitChar_ne {c : Char} (hc : digitValue c = none) (d : Fin 10) : Nat.digitChar d.val ≠ c := by
  rintro rfl
  rw [digitValue_eq_some.mpr ⟨d.isLt, rfl⟩] at hc
  cases hc

/-- No character but a digit's occurs in a text of digits. -/
theorem not_mem_decimalText {c : Char} (hc : digitValue c = none) (ds : List (Fin 10)) : c ∉ decimalText ds := by
  intro h
  obtain ⟨d, -, hd⟩ := List.mem_map.mp h
  exact digitChar_ne hc d hd

/-- An item has an exact value exactly when it is that value's text. -/
theorem itemValue_eq_some {cs : List Char} {v : Int} : itemValue cs = some v ↔ ItemText cs v := by
  unfold itemValue ItemText
  split
  · rename_i rest
    rw [Option.map_eq_some_iff]
    constructor
    · rintro ⟨n, hn, rfl⟩
      obtain ⟨ds, hne, rfl, rfl⟩ := naturalItem_eq_some.mp hn
      exact ⟨ds, hne, .inr ⟨rfl, rfl⟩⟩
    · rintro ⟨ds, hne, ⟨h, -⟩ | ⟨h, rfl⟩⟩
      · exact absurd (h ▸ List.mem_cons_self) (not_mem_decimalText (c := '-') (by decide) ds)
      · exact ⟨_, naturalItem_eq_some.mpr ⟨ds, hne, (List.cons.inj h).2, rfl⟩, rfl⟩
  · rename_i hno
    rw [Option.map_eq_some_iff]
    constructor
    · rintro ⟨n, hn, rfl⟩
      obtain ⟨ds, hne, h, rfl⟩ := naturalItem_eq_some.mp hn
      exact ⟨ds, hne, .inl ⟨h, rfl⟩⟩
    · rintro ⟨ds, hne, ⟨h, rfl⟩ | ⟨h, -⟩⟩
      · exact ⟨_, naturalItem_eq_some.mpr ⟨ds, hne, h, rfl⟩, rfl⟩
      · exact absurd h (hno _)

/-- An item is a word exactly when it is the text of that word's value. -/
theorem itemWord_eq_some {cs : List Char} {w : Word} : itemWord cs = some w ↔ ItemText cs w.toInt := by
  rw [← itemValue_eq_some]
  unfold itemWord
  cases itemValue cs with
  | none => simp
  | some v =>
    simp only [Option.some.injEq]
    split
    · rename_i hv
      obtain ⟨h1, h2⟩ := hv
      unfold wordMin at h1
      unfold wordMax at h2
      have ht : (BitVec.ofInt 64 v).toInt = v := by
        rw [BitVec.toInt_ofInt]
        exact Int.bmod_eq_of_le (by omega) (by omega)
      rw [Option.some.injEq]
      constructor
      · rintro rfl; exact ht.symm
      · rintro rfl; exact BitVec.ofInt_toInt
    · rename_i hv
      constructor
      · intro h; cases h
      · rintro rfl
        have h1 := BitVec.le_toInt w
        have h2 := BitVec.toInt_lt (x := w)
        exact absurd ⟨by unfold wordMin; omega, by unfold wordMax; omega⟩ hv

/-- The items are words exactly when each is the text of its word. -/
theorem itemWords_eq_some {items : List (List Char)} {ws : List Word} :
    itemWords items = some ws ↔ items.length = ws.length ∧ ∀ p ∈ items.zip ws, ItemText p.1 p.2.toInt := by
  induction items generalizing ws with
  | nil => cases ws <;> simp [itemWords]
  | cons cs items ih =>
    cases ws with
    | nil =>
      unfold itemWords
      cases itemWord cs <;> cases itemWords items <;> simp
    | cons w ws =>
      have h : itemWords (cs :: items) = some (w :: ws) ↔ itemWord cs = some w ∧ itemWords items = some ws := by
        rw [itemWords]
        cases itemWord cs <;> cases itemWords items <;> simp
      rw [h, itemWord_eq_some, ih]
      simp only [List.length_cons, Nat.add_right_cancel_iff, List.zip_cons_cons, List.forall_mem_cons]
      exact and_left_comm

theorem splitAtCommas_ne_nil (cs : List Char) : splitAtCommas cs ≠ [] := by
  cases cs with
  | nil => simp [splitAtCommas]
  | cons c cs =>
    unfold splitAtCommas
    split
    · simp
    · split <;> simp

/-- The items put together with commas are the text. -/
theorem intercalate_splitAtCommas (cs : List Char) : List.intercalate [','] (splitAtCommas cs) = cs := by
  induction cs with
  | nil => rfl
  | cons c cs ih =>
    unfold splitAtCommas
    have hne := splitAtCommas_ne_nil cs
    cases hs : splitAtCommas cs with
    | nil => exact absurd hs hne
    | cons item items =>
      rw [hs] at ih
      split
      · rename_i hc
        subst hc
        rw [List.intercalate_cons_cons, ih]
        rfl
      · cases items <;> simp_all [List.intercalate_cons_cons]

/-- Items that hold no comma are what their text splits into. -/
theorem splitAtCommas_intercalate {items : List (List Char)} (hne : items ≠ []) (hc : ∀ cs ∈ items, ',' ∉ cs) :
    splitAtCommas (List.intercalate [','] items) = items := by
  induction items with
  | nil => exact absurd rfl hne
  | cons cs items ih =>
    have front : ∀ (cs rest : List Char) (tail : List (List Char)), ',' ∉ cs → splitAtCommas rest = [] :: tail →
        splitAtCommas (cs ++ rest) = cs :: tail := by
      intro cs rest tail hcs hr
      induction cs with
      | nil => exact hr
      | cons c cs ihc =>
        rw [List.cons_append, splitAtCommas, if_neg (by rintro rfl; exact hcs List.mem_cons_self),
          ihc fun h => hcs (List.mem_cons_of_mem _ h)]
    cases items with
    | nil =>
      have := front cs [] [] (hc cs List.mem_cons_self) rfl
      simpa [List.intercalate] using this
    | cons ds items =>
      rw [List.intercalate_cons_cons, List.append_assoc]
      refine front cs _ _ (hc cs List.mem_cons_self) ?_
      show splitAtCommas (',' :: List.intercalate [','] (ds :: items)) = _
      rw [splitAtCommas, if_pos rfl, ih (by simp) fun x hx => hc x (List.mem_cons_of_mem _ hx)]

/-- The line is its text with at most one line end after it. -/
theorem dropLineEnd_append (line : List Char) :
    ∃ lineEnd, line = dropLineEnd line ++ lineEnd ∧ lineEnd ∈ [[], ['\n'], ['\r', '\n']] := by
  fun_induction dropLineEnd line with
  | case1 => exact ⟨[], rfl, by simp⟩
  | case2 => exact ⟨['\n'], rfl, by simp⟩
  | case3 => exact ⟨['\r', '\n'], rfl, by simp⟩
  | case4 c cs _ _ ih =>
    obtain ⟨e, h, he⟩ := ih
    exact ⟨e, by rw [List.cons_append, ← h], he⟩

theorem dropLineEnd_cons {c : Char} (hn : c ≠ '\n') (hr : c ≠ '\r') (cs : List Char) :
    dropLineEnd (c :: cs) = c :: dropLineEnd cs := by
  rw [dropLineEnd]
  · rintro rfl; exact absurd rfl hn
  · rintro rfl; exact absurd rfl hr

/-- A text that holds no line end's character is what its line leaves. -/
theorem dropLineEnd_of_append {body lineEnd : List Char} (hn : '\n' ∉ body) (hr : '\r' ∉ body)
    (he : lineEnd ∈ [[], ['\n'], ['\r', '\n']]) : dropLineEnd (body ++ lineEnd) = body := by
  induction body with
  | nil =>
    simp only [List.mem_cons, List.not_mem_nil, or_false] at he
    obtain rfl | rfl | rfl := he <;> rfl
  | cons c cs ih =>
    rw [List.cons_append, dropLineEnd_cons (by rintro rfl; exact hn List.mem_cons_self)
      (by rintro rfl; exact hr List.mem_cons_self), ih (fun h => hn (List.mem_cons_of_mem _ h))
      fun h => hr (List.mem_cons_of_mem _ h)]

/-- The loader takes exactly the items of the line without its line end. -/
theorem loadLine_eq (line : List Char) :
    loadLine line = if dropLineEnd line = [] then some [] else itemWords (splitAtCommas (dropLineEnd line)) := by
  unfold loadLine
  cases dropLineEnd line <;> rfl

end Sys2Proof.Machine
end

