-- ==== Sys2Proof/Laws/PerInstr.lean ====
section
/-!
SUPPORT. The family of laws stated per instruction: where each instruction's word lies, what its two low digits are, how
many words it has, and that its write parameter is one of its parameters.
-/

namespace Sys2Proof.Laws.EncodingBound

/-- The instruction word lies in `[1, 22299]` (30_encoding.md R95), its two low digits are the opcode (R81), its length is
1 to 4 words (R80), and a write parameter it has is its last parameter (R90). -/
def Statement (i : Instr) : Prop :=
  1 ≤ (encode i).toNat ∧ (encode i).toNat ≤ 22299 ∧ (encode i).toNat % 100 = opcodeOf i ∧
    1 ≤ instrLength i ∧ instrLength i ≤ 4 ∧ ∀ k m, writeParameter i = some (k, m) → k = operandCount i

theorem digitOfMode_le (m : Mode) : digitOfMode m ≤ 2 := by cases m <;> decide

/-- The bound from the opcode alone. -/
theorem statement_of_opcode {i : Instr} (lo : 1 ≤ opcodeOf i) (hi : opcodeOf i ≤ 99) (len : instrLength i ≤ 4)
    (wr : ∀ k m, writeParameter i = some (k, m) → k = operandCount i) : Statement i := by
  obtain ⟨m1, m2, m3, hm⟩ : ∃ m1 m2 m3, modesOf i = (m1, m2, m3) := ⟨_, _, _, rfl⟩
  have h1 := digitOfMode_le m1
  have h2 := digitOfMode_le m2
  have h3 := digitOfMode_le m3
  unfold Statement
  rw [encode_toNat]
  refine ⟨?_, ?_, ?_, Nat.le_add_right 1 _, len, wr⟩ <;> simp only [encodeNat, hm] <;> omega

theorem add (m1 m2 m3 : Mode) : Statement (.add m1 m2 m3) :=
  statement_of_opcode (by simp [opcodeOf]) (by simp [opcodeOf]) (by simp [instrLength, operandCount])
    (by simp +contextual [writeParameter, operandCount])

theorem mul (m1 m2 m3 : Mode) : Statement (.mul m1 m2 m3) :=
  statement_of_opcode (by simp [opcodeOf]) (by simp [opcodeOf]) (by simp [instrLength, operandCount])
    (by simp +contextual [writeParameter, operandCount])

theorem input (m1 m2 m3 : Mode) : Statement (.input m1 m2 m3) :=
  statement_of_opcode (by simp [opcodeOf]) (by simp [opcodeOf]) (by simp [instrLength, operandCount])
    (by simp +contextual [writeParameter, operandCount])

theorem output (m1 m2 m3 : Mode) : Statement (.output m1 m2 m3) :=
  statement_of_opcode (by simp [opcodeOf]) (by simp [opcodeOf]) (by simp [instrLength, operandCount])
    (by simp [writeParameter])

theorem jumpIfTrue (m1 m2 m3 : Mode) : Statement (.jumpIfTrue m1 m2 m3) :=
  statement_of_opcode (by simp [opcodeOf]) (by simp [opcodeOf]) (by simp [instrLength, operandCount])
    (by simp [writeParameter])

theorem jumpIfFalse (m1 m2 m3 : Mode) : Statement (.jumpIfFalse m1 m2 m3) :=
  statement_of_opcode (by simp [opcodeOf]) (by simp [opcodeOf]) (by simp [instrLength, operandCount])
    (by simp [writeParameter])

theorem lessThan (m1 m2 m3 : Mode) : Statement (.lessThan m1 m2 m3) :=
  statement_of_opcode (by simp [opcodeOf]) (by simp [opcodeOf]) (by simp [instrLength, operandCount])
    (by simp +contextual [writeParameter, operandCount])

theorem equals (m1 m2 m3 : Mode) : Statement (.equals m1 m2 m3) :=
  statement_of_opcode (by simp [opcodeOf]) (by simp [opcodeOf]) (by simp [instrLength, operandCount])
    (by simp +contextual [writeParameter, operandCount])

theorem adjustBase (m1 m2 m3 : Mode) : Statement (.adjustBase m1 m2 m3) :=
  statement_of_opcode (by simp [opcodeOf]) (by simp [opcodeOf]) (by simp [instrLength, operandCount])
    (by simp [writeParameter])

theorem halt (m1 m2 m3 : Mode) : Statement (.halt m1 m2 m3) :=
  statement_of_opcode (by simp [opcodeOf]) (by simp [opcodeOf]) (by simp [instrLength, operandCount])
    (by simp [writeParameter])

end Sys2Proof.Laws.EncodingBound
end

