-- ==== Sys2Proof/Tests/Slice0.lean ====
section
/-!
SUPPORT. Tests of this package, with their source in spec/95_test_vectors.md or another rule named beside them, and one
witness for the hypotheses of each obligation that has any.
-/

namespace Sys2Proof.Tests

open Sys2Proof.Machine

/-- A core about to run the program `p`, with queued input and a capacity. -/
def demo (p : List Word) (inq : List Word := []) (capacity : Nat := maxCapacity) : State :=
  { State.reset with
    cfg := { Config.default with memCapacity := capacity }, mem := programCells 0 p, ext := p.length, inq := inq }

theorem demo_inv {p : List Word} {inq : List Word} {capacity : Nat} (h : p.length ≤ capacity)
    (hc : capacity ≤ maxCapacity) : StateInv (demo p inq capacity) where
  capacity := hc
  canonical := wf_programCells 0 p
  listed c hm := by have := listed_programCells hm; simp only [demo]; omega
  extent := h
  counter := Nat.zero_le _
  recorded := by simp [demo, State.reset]
  record r hr := by simp [demo, State.reset] at hr

/-- The next state, if that is the outcome. -/
def nextOf : Host.Outcome State Fault Refusal → Option State
  | .next t => some t
  | .fault _ => none
  | .refused _ => none

theorem next_of {o : Host.Outcome State Fault Refusal} {t : State} (h : nextOf o = some t) : o = .next t := by
  cases o <;> simp_all [nextOf]

/-- The state after one step; the state itself where there is none. -/
def after (s : State) : State := (nextOf (step s)).getD s

theorem step_after {s : State} (h : (nextOf (step s)).isSome = true) : step s = .next (after s) := by
  cases hs : step s <;> simp_all [after, nextOf]

/-- The fault a core fault leaves. -/
def coreFault (c : Cause) (pc : Nat) : Option FaultRecord := some { cause := c, origin := .core, pc := pc }

/-- `WORD_MAX`. -/
def top : Word := 9223372036854775807

/-- `WORD_MIN`. -/
def bottom : Word := 9223372036854775808

/-! ### Well-formedness: the legal modes of 30_encoding.md R90 -/

theorem test_illformed_add : Instr.wellFormed (.add .position .position .immediate) = false := by decide
theorem test_illformed_mul : Instr.wellFormed (.mul .relative .position .immediate) = false := by decide
theorem test_illformed_input : Instr.wellFormed (.input .immediate .position .position) = false := by decide
theorem test_illformed_lessThan : Instr.wellFormed (.lessThan .immediate .relative .immediate) = false := by decide
theorem test_illformed_equals : Instr.wellFormed (.equals .immediate .immediate .immediate) = false := by decide
theorem test_wellformed_ignored_digit : Instr.wellFormed (.input .relative .immediate .immediate) = true := by decide

/-! ### Decoding, words written from the digits `CBAOO` of R81 -/

/-- R96's worked example `ADD [rb+2], #3, [7]`, digits 0 1 2 01. -/
theorem test_decode_add : decode 1201 = .ok (.add .relative .immediate .position) := by decide
/-- R81's example 1002, digits 0 1 0 02. -/
theorem test_decode_mul : decode 1002 = .ok (.mul .position .immediate .position) := by decide
/-- Digits 0 0 2 03 (program P2). -/
theorem test_decode_input : decode 203 = .ok (.input .relative .position .position) := by decide
/-- R92's 10004: the unused digit m3 = 1 is valid. -/
theorem test_decode_output : decode 10004 = .ok (.output .position .position .immediate) := by decide
/-- Digits 0 1 0 05. -/
theorem test_decode_jumpIfTrue : decode 1005 = .ok (.jumpIfTrue .position .immediate .position) := by decide
/-- Digits 0 1 0 06 (program P1). -/
theorem test_decode_jumpIfFalse : decode 1006 = .ok (.jumpIfFalse .position .immediate .position) := by decide
/-- Digits 2 0 1 07. -/
theorem test_decode_lessThan : decode 20107 = .ok (.lessThan .immediate .position .relative) := by decide
/-- Digits 0 1 0 08 (the quine of section 1.2). -/
theorem test_decode_equals : decode 1008 = .ok (.equals .position .immediate .position) := by decide
/-- Digits 0 0 2 09. -/
theorem test_decode_adjustBase : decode 209 = .ok (.adjustBase .relative .position .position) := by decide
/-- R92's 199. -/
theorem test_decode_halt : decode 199 = .ok (.halt .immediate .position .position) := by decide

/-- D1, D2, D3, D4: sign and opcode come first. -/
theorem test_decode_invalid_opcode :
    decode 0 = .error (.invalidOpcode 0) ∧ decode 193 = .error (.invalidOpcode 193) ∧
    decode (-99) = .error (.invalidOpcode (-99)) ∧ decode 300 = .error (.invalidOpcode 300) := by decide
/-- H3, O6, D7, D8: mode digits, the unused ones too. -/
theorem test_decode_invalid_mode :
    decode 399 = .error (.invalidParameterMode 1 3) ∧ decode 3104 = .error (.invalidParameterMode 2 3) ∧
    decode 30001 = .error (.invalidParameterMode 3 3) ∧ decode 20304 = .error (.invalidParameterMode 1 3) := by decide
/-- D5, D6: high digits. -/
theorem test_decode_high_digits :
    decode 100001 = .error (.invalidParameterMode 4 1) ∧ decode 200099 = .error (.invalidParameterMode 4 2) := by
  decide
/-- A7, D9, L6, I8: immediate write targets. -/
theorem test_decode_write_target :
    decode 11101 = .error (.immediateWriteTarget 3) ∧ decode 10001 = .error (.immediateWriteTarget 3) ∧
    decode 10007 = .error (.immediateWriteTarget 3) ∧ decode 103 = .error (.immediateWriteTarget 1) := by decide
/-- A word in the opcode table's numbering. -/
theorem test_decode_table_word : decodeTableWord 64 99 = some (.halt .position .position .position) := by decide

/-- A word placed where the next step fetches it (HALT with ignored digits) is what that step runs. -/
theorem test_withFetchWord :
    (after (State.reset.withFetchWord 64 22299)).status = .halted ∧
    (after (State.reset.withFetchWord 8 4)).outq = [4] := by decide

/-! ### One step of each instruction -/

/-- A5: the exact sum of WORD_MAX and WORD_MIN is -1. -/
theorem test_add_extremes : memGet (after (demo [1101, top, bottom, 0, 99])).mem 0 = -1 := by decide
/-- A3: WORD_MAX + 1 faults with the exact result and writes nothing. -/
theorem test_add_overflows :
    (after (demo [1101, top, 1, 0, 99])).fault = coreFault (.arithmeticOverflow 9223372036854775808) 0 ∧
    memGet (after (demo [1101, top, 1, 0, 99])).mem 0 = 1101 := by decide
/-- M4: the largest square in range. -/
theorem test_mul_largest_square :
    memGet (after (demo [1102, 3037000499, 3037000499, 0, 99])).mem 0 = 9223372030926249001 := by decide
/-- M8: WORD_MIN squared is 2^126. -/
theorem test_mul_overflows :
    (after (demo [1102, bottom, bottom, 0, 99])).fault =
      coreFault (.arithmeticOverflow 85070591730234615865843651857942052864) 0 := by decide
/-- I6: the destination is the parameter word itself; the value is consumed. -/
theorem test_input_own_parameter :
    memGet (after (demo [3, 1, 99] [5])).mem 1 = 5 ∧ (after (demo [3, 1, 99] [5])).inq = [] := by decide
/-- I5: a faulting IN consumes nothing. -/
theorem test_input_fault_keeps_queue :
    (after (demo [203, -1, 99] [1, 2])).fault = coreFault (.negativeAddress (-1)) 0 ∧
    (after (demo [203, -1, 99] [1, 2])).inq = [1, 2] := by decide
/-- O3: a cell beyond the extent outputs 0 and memory grows to 1001 cells. -/
theorem test_output_grows :
    (after (demo [4, 1000, 99])).outq = [0] ∧ (after (demo [4, 1000, 99])).ext = 1001 := by decide
/-- Values leave in production order: a second output stands behind the first. -/
theorem test_output_appends : (after { demo [104, -5, 99] with outq := [7] }).outq = [7, -5] := by decide
/-- J5: position mode, the target is the word at the address. -/
theorem test_jumpIfTrue_position : (after (demo [5, 7, 8, 99, 0, 0, 0, 1, 3])).pc = 3 := by decide
/-- J4: a jump not taken ignores a negative target. -/
theorem test_jumpIfTrue_not_taken :
    (after (demo [1105, 0, -1, 99])).pc = 3 ∧ (after (demo [1105, 0, -1, 99])).status = .runnable := by decide
/-- K1: taken on 0. -/
theorem test_jumpIfFalse_taken : (after (demo [1106, 0, 4, 0, 99])).pc = 4 := by decide
/-- K3: a taken jump to -1 faults at the jump. -/
theorem test_jumpIfFalse_negative :
    (after (demo [1106, 0, -1])).fault = coreFault (.negativeAddress (-1)) 0 := by decide
/-- L2: the comparison is signed. -/
theorem test_lessThan_signed : memGet (after (demo [1107, bottom, top, 0, 99])).mem 0 = 1 := by decide
/-- L3: equal operands give 0. -/
theorem test_lessThan_equal : memGet (after (demo [1107, 5, 5, 0, 99])).mem 0 = 0 := by decide
/-- E3: cell 0 compared with itself, and replaced. -/
theorem test_equals_self : memGet (after (demo [8, 0, 0, 0, 99])).mem 0 = 1 := by decide
/-- E2: 5 and -5 are unequal. -/
theorem test_equals_sign : memGet (after (demo [1108, 5, -5, 0, 99])).mem 0 = 0 := by decide
/-- R4: a relative-mode operand uses the old base. -/
theorem test_adjustBase_old_base : (after (demo [209, 0, 99])).rb = 209 := by decide
/-- R3: the base does not wrap below WORD_MIN. -/
theorem test_adjustBase_overflows :
    (after { demo [109, -1, 99] with rb := bottom }).fault =
      coreFault (.arithmeticOverflow (-9223372036854775809)) 0 := by decide
/-- H2: valid mode digits are ignored. -/
theorem test_halt_digits : (after (demo [22299])).status = .halted := by decide
/-- H4: the queues keep their contents. -/
theorem test_halt_keeps_queue : (after (demo [99] [5])).inq = [5] := by decide

/-! ### The host port, construction and program text -/

/-- 10_state.md R35: reset is construction from the empty program. -/
theorem test_reset_is_construction : construct Config.default [] = some State.reset := by decide
/-- H12: a program longer than the capacity is refused. -/
theorem test_construct_refuses : construct { Config.default with memCapacity := 2 } [1, 0, 0, 0, 99] = none := by decide
/-- H1: popping an empty queue faults with origin Host. -/
theorem test_pop_underflow :
    (popOutput (demo [99])).1 = .fault (some { cause := .queueUnderflow, origin := .host, pc := 0 }) := by decide
/-- H4: a growing read, and a fault at -1. -/
theorem test_host_memory :
    (getMemory 10 (demo [1, 0, 0, 0, 99])).1 = .value 0 ∧ (getMemory 10 (demo [1, 0, 0, 0, 99])).2.ext = 11 ∧
    (setMemory (-1) 5 (demo [1, 0, 0, 0, 99])).1 =
      .fault (some { cause := .negativeAddress (-1), origin := .host, pc := 0 }) := by decide
/-- H3, H8, H9: `needs_input`. -/
theorem test_needs_input :
    needsInput (demo [3, 0, 99]) = true ∧ needsInput (demo [3, 0, 99] [5]) = false ∧ needsInput (demo [0]) = false ∧
    needsInput (demo [103, 0]) = false := by decide
/-- H10, H11: the two policies for a fixed input value. -/
theorem test_fixed_input :
    ((construct { Config.default with fixedInput := some 4 } [3, 0, 3, 1, 99]).map fun s => s.inq) = some [4] ∧
    ((construct { Config.default with fixedInput := some 4, fixedInputPolicy := .always } [3, 0, 3, 1, 99]).map
      fun s => (s.inq, memGet (after s).mem 0)) = some ([], 4) := by decide
/-- 60_exceptions.md R200: the table's codes. -/
theorem test_cause_codes :
    [.invalidOpcode 0, .invalidParameterMode 1 3, .immediateWriteTarget 3, .negativeAddress (-1),
      .addressBeyondCapacity 10, .arithmeticOverflow 0, .queueUnderflow].map causeCode = [1, 2, 3, 4, 5, 6, 7] := by
  decide
/-- 30_encoding.md R99: items, signs, the line end, the empty line. -/
theorem test_loader_accepts :
    loadLine ['1', ',', '-', '5', ',', '9', '9', '\r', '\n'] = some [1, -5, 99] ∧ loadLine ['\n'] = some [] ∧
    loadLine ['0', '7', '\n'] = some [7] := by decide
/-- R99: an empty item, a plus sign, a space, a lone minus sign and a value that is no word refuse the line. -/
theorem test_loader_refuses :
    loadLine ['1', ',', ',', '2'] = none ∧ loadLine ['+', '1'] = none ∧ loadLine ['1', ',', ' ', '2'] = none ∧
    loadLine ['-'] = none ∧
    loadLine ['9', '2', '2', '3', '3', '7', '2', '0', '3', '6', '8', '5', '4', '7', '7', '5', '8', '0', '8'] = none := by
  decide
/-- R96's example: `ADD [rb+2], #3, [7]` is 1201, 2, 3, 7. -/
theorem test_assemble_add : assemble .add [relOp 2, immOp 3, posOp 7] = some [1201, 2, 3, 7] := by decide
/-- R97: `JMP #6` is 1105, 1, 6 (program P1) and `MOV #1, [31]` is 1101, 1, 0, 31. -/
theorem test_assemble_pseudo :
    assembleJmp (immOp 6) = some [1105, 1, 6] ∧ assembleMov (immOp 1) (posOp 31) = some [1101, 1, 0, 31] := by decide

/-! ### Witnesses: each obligation's hypotheses are met, each clause's at a boundary -/

theorem witness_DecodeOfEncodeIsIdentity :
    Instr.wellFormed (.add .relative .immediate .relative) = true ∧
    Instr.wellFormed (.halt .relative .relative .relative) = true := by decide

/-- The least and the greatest legal word (R95). -/
theorem witness_EncodeOfDecodeIsIdentity :
    decode 1 = .ok (.add .position .position .position) ∧ decode 22299 = .ok (.halt .relative .relative .relative) := by
  decide

/-- With capacity 10: the addresses -1, 10, 0 and 9, and the first address beyond the extent. -/
theorem witness_MemReadChecksGrowsReads :
    (-1 : Int) < 0 ∧ (0 : Int) ≤ 10 ∧ ((demo [4] [] 10).cfg.memCapacity : Int) ≤ 10 ∧ (0 : Int) ≤ 0 ∧
    (9 : Int) < (demo [4] [] 10).cfg.memCapacity ∧ StateInv (demo [4] [] 10) ∧ ((demo [4] [] 10).ext : Int) ≤ 1 :=
  ⟨by decide, by decide, by decide, by decide, by decide, demo_inv (by decide) (by decide), by decide⟩

theorem witness_MemWriteChecksGrowsWrites :
    (-1 : Int) < 0 ∧ (0 : Int) ≤ 10 ∧ ((demo [4] [] 10).cfg.memCapacity : Int) ≤ 10 ∧ (0 : Int) ≤ 0 ∧
    (9 : Int) < (demo [4] [] 10).cfg.memCapacity ∧ StateInv (demo [4] [] 10) :=
  ⟨by decide, by decide, by decide, by decide, by decide, demo_inv (by decide) (by decide)⟩

theorem witness_EqualReadsAreEqualMemories :
    (programCells 0 [1, 0, 2]).wf ∧ (memSet (memSet [] 2 2) 0 1).wf ∧
    ∀ a : Nat, memGet (programCells 0 [1, 0, 2]) a = memGet (memSet (memSet [] 2 2) 0 1) a :=
  ⟨wf_programCells 0 _, by decide, fun _ => rfl⟩

/-- At the last existing address, beyond the extent. -/
theorem witness_PeekAgreesWithRead :
    StateInv (demo [4] [] 10) ∧ 9 < (demo [4] [] 10).cfg.memCapacity := ⟨demo_inv (by decide) (by decide), by decide⟩

/-- Position mode at -1, 10 and 9, and relative mode reaching the same from the base 5, with capacity 10. -/
theorem witness_ResolveReadFollowsMode :
    ((-1 : Word).toInt = -1 ∧ (10 : Word).toInt = 10 ∧ (9 : Word).toInt = 9) ∧
    ((-6 : Word).toInt + (5 : Word).toInt = -1 ∧ (5 : Word).toInt + (5 : Word).toInt = 10 ∧
      (4 : Word).toInt + (5 : Word).toInt = 9) ∧
    ((demo [] [] 10).cfg.memCapacity : Int) ≤ 10 ∧ (9 : Int) < (demo [] [] 10).cfg.memCapacity := by decide

/-- The same operands as for a read; under the default capacity the sum WORD_MAX + 1 is beyond it (R7). -/
theorem witness_ResolveWriteFollowsMode :
    (-1 : Word).toInt < 0 ∧ (0 : Int) ≤ (10 : Word).toInt ∧
    ((demo [] [] 10).cfg.memCapacity : Int) ≤ (10 : Word).toInt ∧
    ((4 : Word).toInt + (5 : Word).toInt) < (demo [] [] 10).cfg.memCapacity ∧
    ((demo []).cfg.memCapacity : Int) ≤ (1 : Word).toInt + top.toInt := by decide

/-- A5, and the relative destination of A6. -/
theorem witness_AddWritesExactSum :
    (threeOperandFault (demo [1101, top, bottom, 0]) .immediate .immediate .position = none ∧
      operandAddr (demo [1101, top, bottom, 0]) 3 .position = some 0 ∧
      (-1 : Word).toInt = (operandValue (demo [1101, top, bottom, 0]) 1 .immediate).toInt +
        (operandValue (demo [1101, top, bottom, 0]) 2 .immediate).toInt) ∧
    threeOperandFault { demo [21101, 2, 3, 0] with rb := 10 } .immediate .immediate .relative = none ∧
    operandAddr { demo [21101, 2, 3, 0] with rb := 10 } 3 .relative = some 10 := by decide

/-- M5. -/
theorem witness_MulWritesExactProduct :
    threeOperandFault (demo [1102, -1, top, 0]) .immediate .immediate .position = none ∧
    operandAddr (demo [1102, -1, top, 0]) 3 .position = some 0 ∧
    (-9223372036854775807 : Word).toInt = (operandValue (demo [1102, -1, top, 0]) 1 .immediate).toInt *
      (operandValue (demo [1102, -1, top, 0]) 2 .immediate).toInt := by decide

/-- L5. -/
theorem witness_LessThanWritesOneOrZero :
    threeOperandFault (demo [7, 0, 1, 5, 99, 9]) .position .position .position = none ∧
    operandAddr (demo [7, 0, 1, 5, 99, 9]) 3 .position = some 5 := by decide

/-- E4. -/
theorem witness_EqualsWritesOneOrZero :
    threeOperandFault (demo [1108, 0, 0, 10, 99]) .immediate .immediate .position = none ∧
    operandAddr (demo [1108, 0, 0, 10, 99]) 3 .position = some 10 := by decide

/-- I7's first IN, under the policy `once`; and a queue under `always` with no fixed value. -/
theorem witness_InputStoresOldestQueuedValue :
    ((demo [3, 5] [1, 2, 3]).cfg.fixedInputPolicy = .once ∧ (demo [3, 5] [1, 2, 3]).inq = 1 :: [2, 3] ∧
      writeFault (demo [3, 5] [1, 2, 3]) 1 .position = none ∧
      operandAddr (demo [3, 5] [1, 2, 3]) 1 .position = some 5) ∧
    ({ demo [3, 5] [1] with cfg := { Config.default with fixedInputPolicy := .always } }).cfg.fixedInput = none := by
  decide

/-- H11. -/
theorem witness_InputStoresFixedValueUnderAlways :
    let s := { demo [3, 0] with cfg := { Config.default with fixedInputPolicy := .always, fixedInput := some 4 } }
    s.cfg.fixedInputPolicy = .always ∧ s.cfg.fixedInput = some 4 ∧ writeFault s 1 .position = none ∧
    operandAddr s 1 .position = some 0 := by decide

/-- I9: blocked, though the destination is illegal. -/
theorem witness_InputBlocksOnEmptyQueue :
    (demo [3, -1]).cfg.fixedInputPolicy = .once ∧ (demo [3, -1]).inq = [] ∧ StateInv (demo [3, -1]) ∧
    (demo [3, -1]).status = .runnable ∧ (demo [3, -1]).pc < (demo [3, -1]).cfg.memCapacity ∧
    decode (memGet (demo [3, -1]).mem (demo [3, -1]).pc) = .ok (.input .position .position .position) :=
  ⟨by decide, by decide, demo_inv (by decide) (by decide), by decide, by decide, by decide⟩

/-- O3. -/
theorem witness_OutputAppendsValue : readFault (demo [4, 1000, 99]) 1 .position = none := by decide

/-- J1 not taken; J8 taken to the target 0. -/
theorem witness_JumpIfTrueGoesOrFallsThrough :
    (twoOperandFault (demo [1105, 0, 7, 99]) .immediate .immediate = none ∧
      operandValue (demo [1105, 0, 7, 99]) 1 .immediate = 0) ∧
    twoOperandFault (demo [1105, 1, 0]) .immediate .immediate = none ∧
    operandValue (demo [1105, 1, 0]) 1 .immediate ≠ 0 ∧
    0 ≤ (operandValue (demo [1105, 1, 0]) 2 .immediate).toInt := by decide

/-- K2 not taken; a taken jump to the target 0. -/
theorem witness_JumpIfFalseGoesOrFallsThrough :
    (twoOperandFault (demo [1106, 5, -9, 99]) .immediate .immediate = none ∧
      operandValue (demo [1106, 5, -9, 99]) 1 .immediate ≠ 0) ∧
    twoOperandFault (demo [1106, 0, 0]) .immediate .immediate = none ∧
    operandValue (demo [1106, 0, 0]) 1 .immediate = 0 ∧
    0 ≤ (operandValue (demo [1106, 0, 0]) 2 .immediate).toInt := by decide

/-- R2's first step: the base becomes WORD_MAX. -/
theorem witness_AdjustBaseAddsExactly :
    readFault (demo [109, top]) 1 .immediate = none ∧
    top.toInt = (demo [109, top]).rb.toInt + (operandValue (demo [109, top]) 1 .immediate).toInt := by decide

/-- A3, M2 and R2's second step: each result is one beyond the word range. -/
theorem witness_OverflowFaultsWithExactResult :
    (threeOperandFault (demo [1101, top, 1, 0]) .immediate .immediate .position = none ∧
      ¬ InWord ((operandValue (demo [1101, top, 1, 0]) 1 .immediate).toInt +
        (operandValue (demo [1101, top, 1, 0]) 2 .immediate).toInt)) ∧
    (threeOperandFault (demo [1102, -1, bottom, 0]) .immediate .immediate .position = none ∧
      ¬ InWord ((operandValue (demo [1102, -1, bottom, 0]) 1 .immediate).toInt *
        (operandValue (demo [1102, -1, bottom, 0]) 2 .immediate).toInt)) ∧
    readFault { demo [109, 1] with rb := top } 1 .immediate = none ∧
    ¬ InWord (top.toInt + (operandValue { demo [109, 1] with rb := top } 1 .immediate).toInt) := by decide

/-- A3. -/
theorem witness_OnlyArithmeticOverflows :
    let s := demo [1101, top, 1, 0]
    StateInv s ∧ step s = .next (after s) ∧
    (after s).fault = coreFault (.arithmeticOverflow 9223372036854775808) 0 :=
  ⟨demo_inv (by decide) (by decide), step_after (by decide), by decide⟩

/-- D11 from parameter 1; the same fault from parameter 2; A9 from the destination; A12 beyond the capacity. -/
theorem witness_ThreeOperandFaultPriority :
    threeOperandFault (demo [1, -1, 0, -1]) .position .position .position = some (.negativeAddress (-1)) ∧
    threeOperandFault (demo [1, 0, -2, -1]) .position .position .position = some (.negativeAddress (-2)) ∧
    threeOperandFault (demo [1, 0, 0, -1]) .position .position .position = some (.negativeAddress (-1)) ∧
    threeOperandFault (demo [1101, 1, 1, 10] [] 10) .immediate .immediate .position =
      some (.addressBeyondCapacity 10) := by decide

/-- O2, J10 and I10; and an IN under `always`, whose queue is empty. -/
theorem witness_OtherOperandFaultPriority :
    readFault (demo [4, -1, 99]) 1 .position = some (.negativeAddress (-1)) ∧
    twoOperandFault (demo [2205, 0, -1]) .relative .relative = some (.negativeAddress (-1)) ∧
    (writeFault (demo [3, -1] [1]) 1 .position = some (.negativeAddress (-1)) ∧ (demo [3, -1] [1]).inq ≠ []) ∧
    let s := { demo [3, -1] with cfg := { Config.default with fixedInputPolicy := .always, fixedInput := some 4 } }
    writeFault s 1 .position = some (.negativeAddress (-1)) ∧ s.cfg.fixedInputPolicy = .always ∧
      s.cfg.fixedInput ≠ none := by decide

/-- J3 to -1; J7 to the capacity; J6's immediate form, to the first cell beyond the extent; K3 for a JF. -/
theorem witness_TakenJumpTargets :
    (operandValue (demo [1105, 1, -1]) 1 .immediate ≠ 0 ∧
      twoOperandFault (demo [1105, 1, -1]) .immediate .immediate = none ∧
      (operandValue (demo [1105, 1, -1]) 2 .immediate).toInt < 0) ∧
    (twoOperandFault (demo [1105, 1, 10] [] 10) .immediate .immediate = none ∧
      0 ≤ (operandValue (demo [1105, 1, 10] [] 10) 2 .immediate).toInt ∧
      (demo [1105, 1, 10] [] 10).cfg.memCapacity ≤ (after (demo [1105, 1, 10] [] 10)).pc) ∧
    (StateInv (demo [1105, 1, 3] [] 10) ∧
      (after (demo [1105, 1, 3] [] 10)).ext ≤ (after (demo [1105, 1, 3] [] 10)).pc ∧
      (after (demo [1105, 1, 3] [] 10)).pc < 10) ∧
    operandValue (demo [1106, 0, -1]) 1 .immediate = 0 :=
  ⟨by decide, by decide, ⟨demo_inv (by decide) (by decide), by decide, by decide⟩, by decide⟩

/-- O2. -/
theorem witness_FaultsArePrecise :
    step (demo [4, -1, 99]) = .next (after (demo [4, -1, 99])) ∧ (after (demo [4, -1, 99])).status = .faulted :=
  ⟨step_after (by decide), by decide⟩

/-- A completing form and a faulting one. -/
theorem witness_ThreeOperandFrame :
    (∃ t, exec (.add .immediate .immediate .position) (demo [1101, 2, 3, 0, 99]) = .next t ∧ t.status = .runnable) ∧
    ∃ t, exec (.mul .immediate .immediate .position) (demo [1102, bottom, bottom, 0]) = .next t ∧
      t.status = .faulted :=
  ⟨⟨_, rfl, by decide⟩, ⟨_, rfl, by decide⟩⟩

theorem witness_InputFrame :
    (∃ t, exec (.input .position .position .position) (demo [3, 0, 99] [42]) = .next t ∧ t.inq = []) ∧
    ∃ t, exec (.input .position .position .position) (demo [3, -1] [1]) = .next t ∧ t.status = .faulted :=
  ⟨⟨_, rfl, by decide⟩, ⟨_, rfl, by decide⟩⟩

theorem witness_NonStoringFrame :
    (∃ t, exec (.output .immediate .position .position) (demo [104, -5, 99]) = .next t ∧ t.outq = [-5]) ∧
    (∃ t, exec (.jumpIfTrue .immediate .immediate .position) (demo [1105, 5, 4]) = .next t ∧ t.pc = 4) ∧
    (∃ t, exec (.jumpIfFalse .immediate .immediate .position) (demo [1106, 0, -1]) = .next t ∧ t.status = .faulted) ∧
    (∃ t, exec (.adjustBase .immediate .position .position) (demo [109, 1]) = .next t ∧ t.rb = 1) ∧
    ∃ t, exec (.halt .position .position .position) (demo [99]) = .next t ∧ t.status = .halted :=
  ⟨⟨_, rfl, by decide⟩, ⟨_, rfl, by decide⟩, ⟨_, rfl, by decide⟩, ⟨_, rfl, by decide⟩, ⟨_, rfl, by decide⟩⟩

/-- A four-word instruction and a two-word one. -/
theorem witness_SequentialAdvanceIsTheLength :
    ((demo [1101, 2, 3, 0]).status = .runnable ∧
      (∃ t, exec (.add .immediate .immediate .position) (demo [1101, 2, 3, 0]) = .next t ∧ t.status = .runnable) ∧
      opcodeOf (.add .immediate .immediate .position) ∉ [5, 6, 99]) ∧
    (∃ t, exec (.input .position .position .position) (demo [3, 0] [1]) = .next t ∧ t.status = .runnable) ∧
    ¬ (opcodeOf (.input .position .position .position) = 3 ∧ nextInput (demo [3, 0] [1]) = none) :=
  ⟨⟨by decide, ⟨_, rfl, by decide⟩, by decide⟩, ⟨_, rfl, by decide⟩, by decide⟩

/-- Section 1.6. -/
theorem witness_OnlyArbMovesTheBase :
    step (demo [109, 1]) = .next (after (demo [109, 1])) ∧ (after (demo [109, 1])).rb ≠ (demo [109, 1]).rb :=
  ⟨step_after (by decide), by decide⟩

theorem witness_OnlyHaltHalts :
    step (demo [99]) = .next (after (demo [99])) ∧ (after (demo [99])).status = .halted :=
  ⟨step_after (by decide), by decide⟩

/-- A step that pops an input, and one that appends an output. -/
theorem witness_StepsKeepQueueOrder :
    (step (demo [3, 0] [1, 2]) = .next (after (demo [3, 0] [1, 2])) ∧ (after (demo [3, 0] [1, 2])).inq = [2]) ∧
    step (demo [104, 6]) = .next (after (demo [104, 6])) ∧ (after (demo [104, 6])).outq = [6] :=
  ⟨⟨step_after (by decide), by decide⟩, step_after (by decide), by decide⟩

theorem witness_EveryInstructionAnswers : State.reset.status = .runnable := rfl

/-- In the last existing cell, within the extent. -/
theorem witness_StepRunsDecodedInstruction :
    (demo [99] [] 1).status = .runnable ∧ (demo [99] [] 1).pc < (demo [99] [] 1).cfg.memCapacity ∧
    decode (memGet (demo [99] [] 1).mem (demo [99] [] 1).pc) = .ok (.halt .position .position .position) ∧
    (demo [99] [] 1).pc < (demo [99] [] 1).ext := by decide

/-- A fetch at the capacity; a decoder fault. -/
theorem witness_StepTakesFetchAndDecodeFaults :
    ({ demo [] [] 10 with pc := 10 }).status = .runnable ∧ (demo [] [] 10).cfg.memCapacity ≤ 10 ∧
    (demo [399]).status = .runnable ∧ (demo [399]).pc < (demo [399]).cfg.memCapacity ∧
    decode (memGet (demo [399]).mem (demo [399]).pc) = .error (.invalidParameterMode 1 3) := by decide

/-- D12, at the extent; and a cell of the program that holds 0. -/
theorem witness_RunningOffTheEndFaults :
    (StateInv (demo []) ∧ (demo []).status = .runnable ∧ (demo []).pc < (demo []).cfg.memCapacity ∧
      (demo []).ext ≤ (demo []).pc) ∧
    StateInv (demo [0]) ∧ ¬ (demo [0]).ext ≤ (demo [0]).pc ∧ memGet (demo [0]).mem (demo [0]).pc = 0 :=
  ⟨⟨demo_inv (by decide) (by decide), by decide, by decide, by decide⟩, demo_inv (by decide) (by decide), by decide,
    by decide⟩

/-- A Halted core; a Faulted one. -/
def haltedDemo : State := { demo [99] with pc := 1, status := .halted }

def faultedDemo : State :=
  { demo [0] with status := .faulted, fault := coreFault (.invalidOpcode 0) 0 }

theorem haltedDemo_inv : StateInv haltedDemo where
  capacity := by decide
  canonical := by decide
  listed := by decide
  extent := by decide
  counter := by decide
  recorded := by decide
  record r hr := by simp [haltedDemo, demo, State.reset] at hr

theorem faultedDemo_inv : StateInv faultedDemo where
  capacity := by decide
  canonical := by decide
  listed := by decide
  extent := by decide
  counter := by decide
  recorded := by decide
  record r hr := by
    obtain rfl : { cause := .invalidOpcode 0, origin := .core, pc := 0 } = r := Option.some.inj hr
    exact ⟨rfl, rfl, .inr (by decide)⟩

/-- No step in Halted or Faulted; and each of the four outcomes of a Runnable step. -/
theorem witness_StepHasOneOfFourOutcomes :
    (StateInv haltedDemo ∧ haltedDemo.status ≠ .runnable) ∧ (StateInv faultedDemo ∧ faultedDemo.status ≠ .runnable) ∧
    (StateInv (demo [104, 6]) ∧ (demo [104, 6]).status = .runnable) ∧
    (coreStep (demo [104, 6])).map (fun r => r.1) = some .stepped ∧
    (coreStep (demo [99])).map (fun r => r.1) = some .halted ∧
    (coreStep (demo [3, 0])).map (fun r => r.1) = some .blocked ∧
    (coreStep (demo [0])).map (fun r => r.1) = some (.faulted (coreFault (.invalidOpcode 0) 0)) :=
  ⟨⟨haltedDemo_inv, by decide⟩, ⟨faultedDemo_inv, by decide⟩, ⟨demo_inv (by decide) (by decide), by decide⟩, by decide,
    by decide, by decide, by decide⟩

theorem witness_StepKeepsInvariant :
    StateInv (demo [1101, 1, 1, 1000, 99]) ∧
    step (demo [1101, 1, 1, 1000, 99]) = .next (after (demo [1101, 1, 1, 1000, 99])) :=
  ⟨demo_inv (by decide) (by decide), step_after (by decide)⟩

/-- A program that fills the capacity. -/
theorem witness_ConstructionMeetsInvariant :
    construct { Config.default with memCapacity := 2 } [104, 7] = some (demo [104, 7] [] 2) := by decide

theorem witness_HostOperationsKeepInvariant : StateInv (demo [3, 0]) ∧ StateInv haltedDemo ∧ StateInv faultedDemo :=
  ⟨demo_inv (by decide) (by decide), haltedDemo_inv, faultedDemo_inv⟩

/-- A step that grows memory, and a host read that does. -/
theorem witness_ExtentNeverShrinks :
    (step (demo [4, 1000]) = .next (after (demo [4, 1000])) ∧ (after (demo [4, 1000])).ext = 1001) ∧
    ∃ t, t = (getMemory 10 (demo [99])).2 ∧ t.ext = 11 :=
  ⟨⟨step_after (by decide), by decide⟩, ⟨_, rfl, by decide⟩⟩

/-- Two states within the invariant that differ in the extent only. -/
theorem witness_ExtentIsUnobservable :
    step (demo [3, 0] [1]) = .next (after (demo [3, 0] [1])) ∧ StateInv (demo [3, 0]) ∧
    StateInv { demo [3, 0] with ext := 5 } :=
  ⟨step_after (by decide), demo_inv (by decide) (by decide),
    { capacity := by decide, canonical := by decide, listed := by decide, extent := by decide, counter := by decide,
      recorded := by decide, record := fun r hr => by simp [demo, State.reset] at hr }⟩

/-- A program that fills the capacity, with no fixed value and with one under either policy. -/
theorem witness_ConstructionState :
    ([104, 7] : List Word).length ≤ 2 ∧ 2 ≤ maxCapacity ∧ Config.default.fixedInput = none ∧
    ({ Config.default with fixedInput := some 4 }).fixedInput = some 4 ∧
    ({ Config.default with fixedInput := some 4, fixedInputPolicy := .always }).fixedInput = some 4 := by decide

theorem witness_LongProgramIsRefused :
    ({ Config.default with memCapacity := 2 }).memCapacity < ([1, 0, 99] : List Word).length := by decide

theorem witness_PushInputAppends :
    (demo [3, 0] [1]).status ≠ .faulted ∧ haltedDemo.status ≠ .faulted ∧ haltedDemo.status = .halted := by decide

theorem witness_PopOutputTakesTheOldest :
    ({ demo [99] with outq := [7, 8] }).status ≠ .faulted ∧ ({ demo [99] with outq := [7, 8] }).outq = 7 :: [8] ∧
    (demo [99]).outq = [] := by decide

/-- The first and the last existing address, and the two faults on either side. -/
theorem witness_HostMemoryAccess :
    (demo [99] [] 10).status ≠ .faulted ∧ 0 ≤ (0 : Word).toInt ∧
    (9 : Word).toInt < (demo [99] [] 10).cfg.memCapacity ∧
    addrFault (demo [99] [] 10) (-1 : Word).toInt = some (.negativeAddress (-1)) ∧
    addrFault (demo [99] [] 10) (10 : Word).toInt = some (.addressBeyondCapacity 10) := by decide

/-- A Faulted instance; and each host operation that itself faults. -/
theorem witness_FaultedInstanceRefuses :
    faultedDemo.status = .faulted ∧
    (popOutput (demo [99])).1 = .fault (some { cause := .queueUnderflow, origin := .host, pc := 0 }) ∧
    (getMemory (-1) (demo [99])).1 = .fault (some { cause := .negativeAddress (-1), origin := .host, pc := 0 }) ∧
    (setMemory 10 1 (demo [99] [] 10)).1 =
      .fault (some { cause := .addressBeyondCapacity 10, origin := .host, pc := 0 }) := by decide

/-- A host operation that completes and one that faults. -/
theorem witness_HostLeavesRegisters :
    (∃ t, t = (pushInput 5 (demo [3, 0])).2 ∧ t.status = .runnable) ∧
    ∃ t, t = (popOutput (demo [3, 0])).2 ∧ t.status = .faulted :=
  ⟨⟨_, rfl, by decide⟩, ⟨_, rfl, by decide⟩⟩

/-- An IN under the policy `always` with the fixed value 4 and an empty queue (H11). -/
def fixedDemo : State :=
  { demo [3, 0] with cfg := { Config.default with fixedInputPolicy := .always, fixedInput := some 4 } }

theorem fixedDemo_inv : StateInv fixedDemo where
  capacity := by decide
  canonical := by decide
  listed := by decide
  extent := by decide
  counter := by decide
  recorded := by decide
  record r hr := by simp [fixedDemo, demo, State.reset] at hr

/-- With no fixed value in force; and with one, where the formula of R31 holds and the step is not Blocked. -/
theorem witness_NeedsInputIffBlocked :
    (StateInv (demo [3, 0]) ∧ (demo [3, 0]).cfg.fixedInputPolicy = .once ∧ needsInput (demo [3, 0]) = true) ∧
    StateInv fixedDemo ∧ fixedDemo.cfg.fixedInputPolicy = .always ∧ fixedDemo.cfg.fixedInput ≠ none ∧
    needsInput fixedDemo = true ∧ stepBlocks fixedDemo = false :=
  ⟨⟨demo_inv (by decide) (by decide), by decide, by decide⟩, fixedDemo_inv, by decide, by decide, by decide, by decide⟩

theorem witness_RunAtRest :
    haltedDemo.status = .halted ∧ faultedDemo.status = .faulted ∧
    (StateInv (demo [3, 0]) ∧ (demo [3, 0]).status = .runnable ∧ isInputAt (demo [3, 0]) = true ∧
      (demo [3, 0]).inq = [] ∧ (demo [3, 0]).cfg.fixedInputPolicy = .once) :=
  ⟨by decide, by decide, demo_inv (by decide) (by decide), by decide, by decide, by decide, by decide⟩

/-- Each of the four results of a run, the last by running out of fuel (J8). -/
theorem witness_RunEndsAsReported :
    (StateInv (demo [99]) ∧ (run 1 (demo [99])).1 = .halted) ∧
    (StateInv (demo [3, 0]) ∧ (run 1 (demo [3, 0])).1 = .blockedOnInput) ∧
    (StateInv (demo [0]) ∧ (run 1 (demo [0])).1 = .faulted (coreFault (.invalidOpcode 0) 0)) ∧
    StateInv (demo [1105, 1, 0]) ∧ (run 2 (demo [1105, 1, 0])).1 = .outOfFuel :=
  ⟨⟨demo_inv (by decide) (by decide), by decide⟩, ⟨demo_inv (by decide) (by decide), by decide⟩,
    ⟨demo_inv (by decide) (by decide), by decide⟩, demo_inv (by decide) (by decide), by decide⟩

/-- I2, which consumes the pushed value; I9, which faults on it; and a fixed value, which leaves it queued. -/
theorem witness_ResumeConsumesExactlyOne :
    (StateInv (demo [3, 0, 99]) ∧ needsInput (demo [3, 0, 99]) = true ∧
      (after (pushInput 5 (demo [3, 0, 99])).2).inq = []) ∧
    (StateInv (demo [3, -1]) ∧ needsInput (demo [3, -1]) = true ∧ (after (pushInput 5 (demo [3, -1])).2).inq = [5]) ∧
    StateInv fixedDemo ∧ needsInput fixedDemo = true ∧ (after (pushInput 5 fixedDemo).2).inq = [5] :=
  ⟨⟨demo_inv (by decide) (by decide), by decide, by decide⟩,
    ⟨demo_inv (by decide) (by decide), by decide, by decide⟩, fixedDemo_inv, by decide, by decide⟩

theorem witness_OtherCharacterRefusesLine :
    'a' ∉ ['0', '1', '2', '3', '4', '5', '6', '7', '8', '9', ',', '-', '\n', '\r'] ∧
    ' ' ∉ ['0', '1', '2', '3', '4', '5', '6', '7', '8', '9', ',', '-', '\n', '\r'] := by decide

/-- The line `1,-5` with a CRLF, and the empty line with an LF. -/
theorem witness_LoaderAcceptsExactlyProgramText :
    (LineText ['1', ',', '-', '5', '\r', '\n'] [1, -5] ∧
      loadLine ['1', ',', '-', '5', '\r', '\n'] = some [1, -5]) ∧
    LineText ['\n'] [] ∧ loadLine ['\n'] = some [] := by
  refine ⟨⟨⟨['1', ',', '-', '5'], ['\r', '\n'], rfl, by decide, .inr ⟨[['1'], ['-', '5']], by decide, by decide, rfl, ?_⟩⟩,
    by decide⟩, ⟨[], ['\n'], rfl, by decide, .inl ⟨rfl, rfl⟩⟩, by decide⟩
  intro p hp
  simp only [List.zip_cons_cons, List.zip_nil_right, List.mem_cons, List.not_mem_nil, or_false] at hp
  obtain rfl | rfl := hp
  · exact ⟨[1], by decide, .inl ⟨by decide, by decide⟩⟩
  · exact ⟨[5], by decide, .inr ⟨by decide, by decide⟩⟩

theorem witness_AssembledWordsDecode :
    instrOfOpcode 1 = some .add ∧ assemble .add [relOp 2, immOp 3, posOp 7] = some [1201, 2, 3, 7] ∧
    instrOfOpcode 99 = some .halt ∧ assemble .halt [] = some [99] := ⟨rfl, by decide, rfl, by decide⟩

end Sys2Proof.Tests
end

/-!
PROOFS of the family 10_state.md. The lemmas of the state come first: how the invariant survives each named change, what
an effect leaves of each register, what a host operation can lead to, what a memory lists. Then each obligation.
-/

namespace Sys2Proof.Machine

/-! ### The invariant under the changes a state can undergo -/

theorem StateInv.fault_eq_none {s : State} (h : StateInv s) (hs : s.status ≠ .faulted) : s.fault = none := by
  by_contra hf
  exact hs (h.recorded.mpr hf)

/-- Growth within the capacity (10_state.md R26). -/
theorem StateInv.grown {s : State} {e : Nat} (h : StateInv s) (le : s.ext ≤ e)
    (bound : s.ext ≤ s.cfg.memCapacity → e ≤ s.cfg.memCapacity) : StateInv { s with ext := e } :=
  { h with
    listed := fun c hc => Nat.lt_of_lt_of_le (h.listed c hc) le
    extent := bound h.extent }

/-- A write below the extent (10_state.md R25). -/
theorem StateInv.written {s : State} {d : Nat} (h : StateInv s) (lt : d < s.ext) (v : Word) :
    StateInv { s with mem := memSet s.mem d v } :=
  { h with
    canonical := wf_memSet h.canonical d v
    listed := fun c hc => by
      rcases listed_memSet hc with hd | hm
      · exact hd ▸ lt
      · exact h.listed c hm }

/-- A move of the program counter, which no fault record pins down outside Faulted (10_state.md R22, R30). -/
theorem StateInv.moved {s : State} {p : Nat} (h : StateInv s) (hs : s.status ≠ .faulted) (le : p ≤ maxCapacity) :
    StateInv { s with pc := p } :=
  { h with
    counter := le
    record := fun r hr => by simp [h.fault_eq_none hs] at hr }

/-- The relative base and the queues are free. -/
theorem StateInv.withQueues {s : State} (h : StateInv s) (rb : Word) (inq outq : List Word) :
    StateInv { s with rb := rb, inq := inq, outq := outq } :=
  { h with }

/-- The end of execution (10_state.md R29). -/
theorem StateInv.stopped {s : State} (h : StateInv s) (hs : s.status ≠ .faulted) :
    StateInv { s with status := .halted } :=
  { h with recorded := by simp [h.fault_eq_none hs] }

/-- A taken fault with a legal cause (10_state.md R30). -/
theorem StateInv.faulted {s : State} {o : Origin} {c : Cause} (h : StateInv s)
    (legal : causeLegal s.cfg.memCapacity o c) : StateInv (takeFault o c s) :=
  { h with
    recorded := by simp
    record := fun r hr => by
      obtain rfl : _ = r := Option.some.inj hr
      exact ⟨rfl, legal⟩ }

/-- Every effect of an instruction fetched below the capacity keeps the invariant. -/
theorem StateInv.effect {i : Instr} {s t : State} (h : StateInv s) (hrun : s.status = .runnable)
    (hpc : s.pc < s.cfg.memCapacity) (he : Effect i s t) : StateInv t := by
  have hs : s.status ≠ .faulted := by simp [hrun]
  have hcap := h.capacity
  cases he with
  | fault c e le bound legal => exact (h.grown le bound).faulted legal
  | blocked op empty => exact h
  | wrote d v e op addr legal le lt bound next =>
    exact ((h.grown le bound).written lt v).moved hs (by omega)
  | received d v q e op input addr legal le lt bound next =>
    exact (((h.grown le bound).written lt v).withQueues s.rb q s.outq).moved hs (by omega)
  | sent v e op le bound next =>
    exact ((h.grown le bound).withQueues s.rb s.inq (s.outq ++ [v])).moved hs (by omega)
  | jumped p e op le bound next => exact (h.grown le bound).moved hs (by omega)
  | rebased r e op le bound next =>
    exact ((h.grown le bound).withQueues r s.inq s.outq).moved hs (by omega)
  | halted op => exact (h.moved hs (show s.pc + 1 ≤ maxCapacity by omega)).stopped hs

theorem StateInv.step {s t : State} (h : StateInv s) (hstep : step s = .next t) : StateInv t := by
  obtain ⟨hrun, ⟨c, e, le, bound, legal, rfl⟩ | ⟨i, hf, -, he⟩⟩ := step_cases hstep
  · exact (h.grown le bound).faulted legal
  · have hpc := addrFault_bound hf
    exact (h.grown (le_extTouch _ _) fun hc => extTouch_le hc (by omega)).effect hrun
      (show s.pc < s.cfg.memCapacity by omega) he

/-- Settles O41: each of the effects of a step keeps the invariant. -/
theorem stepKeepsInvariant : Obligations.StepKeepsInvariant :=
  fun _ _ h hstep => h.step hstep

/-! ### States that differ only in the extent -/

/-- The same outcome of a step, its next state with another extent. -/
def nextWithExt (o : Host.Outcome State Fault Refusal) (e : Nat) : Host.Outcome State Fault Refusal :=
  match o with
  | .next t => .next { t with ext := e }
  | .fault r => .fault r
  | .refused r => .refused r

theorem step_halted {s : State} (h : s.status = .halted) : step s = .fault .haltedHasNoStep := by simp [step, h]

theorem step_faulted {s : State} (h : s.status = .faulted) : step s = .fault .faultedHasNoStep := by simp [step, h]

theorem step_ext (s : State) (e : Nat) : ∃ e', step { s with ext := e } = nextWithExt (step s) e' := by
  obtain hs | hs | hs : s.status = .halted ∨ s.status = .faulted ∨ s.status = .runnable := by
    cases s.status <;> simp
  · exact ⟨e, by rw [step_halted hs, step_halted (s := { s with ext := e }) hs]; rfl⟩
  · exact ⟨e, by rw [step_faulted hs, step_faulted (s := { s with ext := e }) hs]; rfl⟩
  · obtain ⟨e1, h1⟩ := extFree_fetchInstr s e
    rw [step_runnable hs, step_runnable (s := { s with ext := e }) hs, h1]
    cases fetchInstr s with
    | ok i s1 =>
      obtain ⟨t, e2, ht, ht'⟩ := exec_ext i s1 e1
      exact ⟨e2, by simp only [withExt, ht, ht', nextWithExt]⟩
    | raise c s1 => exact ⟨e1, rfl⟩

theorem stepBlocks_ext (s : State) (e : Nat) : stepBlocks { s with ext := e } = stepBlocks s := by
  obtain ⟨e1, h1⟩ := extFree_fetchInstr s e
  unfold stepBlocks
  rw [h1]
  cases fetchInstr s <;> rfl

theorem coreStep_ext (s : State) (e : Nat) :
    ∃ e', coreStep { s with ext := e } = (coreStep s).map fun p => (p.1, { p.2 with ext := e' }) := by
  obtain ⟨e1, h1⟩ := step_ext s e
  refine ⟨e1, ?_⟩
  unfold coreStep
  rw [h1, stepBlocks_ext]
  cases step s with
  | next t =>
    cases stepBlocks s with
    | true => rfl
    | false => cases ht : t.status <;> simp [nextWithExt, ht]
  | fault r => rfl
  | refused r => rfl

theorem run_ext (n : Nat) (s : State) (e : Nat) :
    ∃ e', run n { s with ext := e } = ((run n s).1, { (run n s).2 with ext := e' }) := by
  induction n generalizing s e with
  | zero => exact ⟨e, rfl⟩
  | succ n ih =>
    obtain ⟨e1, h1⟩ := coreStep_ext s e
    unfold run
    rw [h1]
    cases coreStep s with
    | none => exact ⟨e, rfl⟩
    | some p =>
      obtain ⟨r, t⟩ := p
      cases r with
      | stepped => exact ih t e1
      | halted => exact ⟨e1, rfl⟩
      | blocked => exact ⟨e1, rfl⟩
      | faulted f => exact ⟨e1, rfl⟩

/-- A host operation built on one that does not see the extent does not see it either. -/
theorem unlessFaulted_hostReply_ext {α : Type} {f : State → Res α} (hf : ExtFree f) (s : State) (e : Nat) :
    ∃ e', unlessFaulted { s with ext := e } (fun s => hostReply (f s)) =
      ((unlessFaulted s fun s => hostReply (f s)).1,
        { (unlessFaulted s fun s => hostReply (f s)).2 with ext := e' }) := by
  by_cases hs : s.status = .faulted
  · rw [unlessFaulted_refuses hs, unlessFaulted_refuses (s := { s with ext := e }) hs]
    exact ⟨e, rfl⟩
  · rw [unlessFaulted_acts hs, unlessFaulted_acts (s := { s with ext := e }) hs]
    obtain ⟨e1, h1⟩ := hf s e
    rw [h1]
    cases f s <;> exact ⟨e1, rfl⟩

theorem pushInput_ext (v : Word) (s : State) (e : Nat) :
    pushInput v { s with ext := e } = ((pushInput v s).1, { (pushInput v s).2 with ext := e }) := by
  obtain ⟨cfg, mem, ext, pc, rb, inq, outq, status, fault⟩ := s
  cases status <;> rfl

theorem popOutput_ext (s : State) (e : Nat) :
    popOutput { s with ext := e } = ((popOutput s).1, { (popOutput s).2 with ext := e }) := by
  obtain ⟨cfg, mem, ext, pc, rb, inq, outq, status, fault⟩ := s
  cases status <;> cases outq <;> rfl

/-- Within the invariant `Peek` reads the cell: beyond the extent both are 0 (20_memory.md R56). -/
theorem peek_eq_memGet {s : State} (h : StateInv s) (a : Nat) : peek a s = memGet s.mem a := by
  unfold peek
  split
  · rfl
  · exact (memGet_of_listed h.listed (by omega)).symm

theorem needsInput_ext {s : State} {e : Nat} (h : StateInv s) (he : StateInv { s with ext := e }) :
    needsInput { s with ext := e } = needsInput s := by
  have hp : peek s.pc { s with ext := e } = peek s.pc s := by rw [peek_eq_memGet he, peek_eq_memGet h]
  have hi : isInputAt { s with ext := e } = isInputAt s := by
    unfold isInputAt
    rw [hp]
  unfold needsInput blockedOnInput
  rw [hi]

/-- Settles O46: no operation depends on the extent but through the extent it leaves. -/
theorem extentIsUnobservable : Obligations.ExtentIsUnobservable := by
  intro s e
  refine ⟨fun t ht => ?_, fun n => ?_, fun a => ?_, fun a v => ?_, fun v => ?_, ?_, ?_, needsInput_ext⟩
  · obtain ⟨e', h⟩ := step_ext s e
    exact ⟨e', by rw [h, ht]; rfl⟩
  · obtain ⟨e', h⟩ := run_ext n s e
    rw [h]
    exact ⟨rfl, e', rfl⟩
  · obtain ⟨e', h⟩ := unlessFaulted_hostReply_ext (extFree_memRead a.toInt) s e
    unfold getMemory
    rw [h]
    exact ⟨rfl, e', rfl⟩
  · obtain ⟨e', h⟩ := unlessFaulted_hostReply_ext (extFree_memWrite a.toInt v) s e
    unfold setMemory
    rw [h]
    exact ⟨rfl, e', rfl⟩
  · rw [pushInput_ext]
    exact ⟨rfl, rfl⟩
  · rw [popOutput_ext]
  · rw [popOutput_ext]

/-! ### A canonical memory is determined by what it reads -/

/-- A cell that reads non-zero is listed. -/
theorem mem_of_memGet_ne_zero {m : Memory} {a : Nat} (h : memGet m a ≠ 0) : (a, memGet m a) ∈ m := by
  induction m with
  | nil => exact absurd rfl h
  | cons c m ih =>
    obtain ⟨b, v⟩ := c
    by_cases hab : a = b
    · simp [memGet, hab]
    · simp only [memGet, hab, if_false] at h ⊢
      exact List.mem_cons_of_mem _ (ih h)

/-- A canonical memory lists exactly the cells that read non-zero (20_memory.md R61). -/
theorem mem_iff_memGet {m : Memory} (h : m.wf) (c : Nat × Word) : c ∈ m ↔ c.2 ≠ 0 ∧ memGet m c.1 = c.2 := by
  refine ⟨fun hc => ⟨h.2 c hc, memGet_of_mem h hc⟩, fun ⟨hne, hget⟩ => ?_⟩
  rw [← hget] at hne
  simpa [hget] using mem_of_memGet_ne_zero hne

/-- Settles O7: both memories list exactly the cells that read non-zero, in rising order. -/
theorem equalReadsAreEqualMemories : Obligations.EqualReadsAreEqualMemories := by
  intro m m' h h' hread
  have irrefl : Std.Irrefl fun c d : Nat × Word => c.1 < d.1 := ⟨fun _ => Nat.lt_irrefl _⟩
  refine h.1.eq_of_mem_iff h'.1 fun c => ?_
  rw [mem_iff_memGet h, mem_iff_memGet h', hread]

/-! ### What a step leaves of the relative base, the status and the queues -/

/-- An instruction is the one its opcode names, at some modes. -/
theorem exists_modes_of_opcodeOf {i : Instr} {n : Nat} {mk : Mode → Mode → Mode → Instr} (h : opcodeOf i = n)
    (hmk : instrOfOpcode n = some mk) : ∃ m1 m2 m3, i = mk m1 m2 m3 := by
  obtain ⟨mk', hmk', hi⟩ := instrOfOpcode_opcodeOf i
  obtain rfl : mk = mk' := Option.some.inj (hmk.symm.trans (h ▸ hmk'))
  exact ⟨_, _, _, hi⟩

/-- The value an IN receives is the oldest queued one, or the queue is left alone (42_io.md R162). -/
theorem nextInput_queue {s : State} {v : Word} {q : List Word} (h : nextInput s = some (v, q)) :
    q = s.inq ∨ s.inq = v :: q := by
  unfold nextInput at h
  split at h
  · simp_all
  · split at h <;> simp_all

theorem Effect.rb_eq_or {i : Instr} {s t : State} (h : Effect i s t) : t.rb = s.rb ∨ opcodeOf i = 9 := by
  cases h with
  | rebased r e op => exact .inr op
  | _ => exact .inl rfl

theorem Effect.status_ne_halted_or {i : Instr} {s t : State} (h : Effect i s t) (hs : s.status ≠ .halted) :
    t.status ≠ .halted ∨ opcodeOf i = 99 := by
  cases h with
  | halted op => exact .inr op
  | fault => exact .inl (by simp)
  | _ => exact .inl hs

theorem Effect.inq_eq_or {i : Instr} {s t : State} (h : Effect i s t) :
    t.inq = s.inq ∨ ∃ v, s.inq = v :: t.inq ∧ opcodeOf i = 3 := by
  cases h with
  | received d v q e op input => exact (nextInput_queue input).imp_right fun hq => ⟨v, hq, op⟩
  | _ => exact .inl rfl

theorem Effect.outq_eq_or {i : Instr} {s t : State} (h : Effect i s t) :
    t.outq = s.outq ∨ ∃ v, t.outq = s.outq ++ [v] ∧ opcodeOf i = 4 := by
  cases h with
  | sent v e op => exact .inr ⟨v, rfl, op⟩
  | _ => exact .inl rfl

/-- Settles O33: of the effects, only that of an ARB changes the relative base. -/
theorem onlyArbMovesTheBase : Obligations.OnlyArbMovesTheBase := by
  intro s t hstep hne
  obtain ⟨-, ⟨c, e, -, -, -, rfl⟩ | ⟨i, -, hd, he⟩⟩ := step_cases hstep
  · exact absurd rfl hne
  · obtain ⟨m1, m2, m3, rfl⟩ := exists_modes_of_opcodeOf (he.rb_eq_or.resolve_left hne) rfl
    exact ⟨m1, m2, m3, hd⟩

/-- Settles O34: of the effects, only that of a HALT ends in Halted. -/
theorem onlyHaltHalts : Obligations.OnlyHaltHalts := by
  intro s t hstep hhalted
  obtain ⟨hrun, ⟨c, e, -, -, -, rfl⟩ | ⟨i, -, hd, he⟩⟩ := step_cases hstep
  · simp at hhalted
  · have hs : s.status ≠ .halted := by simp [hrun]
    obtain ⟨m1, m2, m3, rfl⟩ := exists_modes_of_opcodeOf ((he.status_ne_halted_or hs).resolve_left (· hhalted)) rfl
    exact ⟨m1, m2, m3, hd⟩

/-- Settles O35: of the effects, only that of an IN takes an input, the oldest, and only that of an OUT adds an output,
at the back. -/
theorem stepsKeepQueueOrder : Obligations.StepsKeepQueueOrder := by
  intro s t hstep
  obtain ⟨-, ⟨c, e, -, -, -, rfl⟩ | ⟨i, -, hd, he⟩⟩ := step_cases hstep
  · exact ⟨.inl rfl, .inl rfl⟩
  · refine ⟨he.inq_eq_or.imp_right ?_, he.outq_eq_or.imp_right ?_⟩
    · rintro ⟨v, hq, op⟩
      obtain ⟨m1, m2, m3, rfl⟩ := exists_modes_of_opcodeOf op rfl
      exact ⟨v, m1, m2, m3, hq, hd⟩
    · rintro ⟨v, hq, op⟩
      obtain ⟨m1, m2, m3, rfl⟩ := exists_modes_of_opcodeOf op rfl
      exact ⟨v, m1, m2, m3, hq, hd⟩

/-! ### Construction and reset -/

/-- What a program's cells read: word `k` of the program at `k` above the address it is placed from, 0 past its end. -/
theorem memGet_programCells (a : Nat) (p : List Word) (k : Nat) :
    memGet (programCells a p) (a + k) = p.getD k 0 := by
  induction p generalizing a k with
  | nil => rfl
  | cons v vs ih =>
    unfold programCells
    cases k with
    | zero =>
      split
      · rename_i hv
        exact (memGet_of_lt fun c hc => (listed_programCells hc).1).trans hv.symm
      · simp [memGet]
    | succ k =>
      have htail : memGet (programCells (a + 1) vs) (a + (k + 1)) = (v :: vs).getD (k + 1) 0 := by
        rw [show a + (k + 1) = a + 1 + k by omega, ih, List.getD_cons_succ]
      split
      · exact htail
      · rwa [memGet, if_neg (by omega)]

theorem initialInput_eq_nil {cfg : Config} (h : cfg.fixedInput = none) : initialInput cfg = [] := by
  unfold initialInput
  cases cfg.fixedInputPolicy <;> simp [h]

theorem initialInput_of_fixed {cfg : Config} {v : Word} (h : cfg.fixedInput = some v) :
    initialInput cfg = if cfg.fixedInputPolicy = .once then [v] else [] := by
  unfold initialInput
  cases cfg.fixedInputPolicy <;> simp [h]

/-- Settles O47: the memory reads the program, and every other element is written out by `construct`. -/
theorem constructionState : Obligations.ConstructionState := by
  intro cfg p hlen hcap
  refine ⟨_, if_pos ⟨hlen, hcap⟩, fun a => ?_, rfl, rfl, rfl, rfl, rfl, rfl, rfl, initialInput_eq_nil,
    fun v => initialInput_of_fixed⟩
  simpa using memGet_programCells 0 p a

/-- Settles O42: nothing is listed, the extent is 0 and there is no fault. -/
theorem resetMeetsInvariant : Obligations.ResetMeetsInvariant where
  capacity := Nat.le_refl maxCapacity
  canonical := wf_programCells 0 []
  listed _ hc := absurd hc List.not_mem_nil
  extent := Nat.zero_le _
  counter := Nat.zero_le _
  recorded := by simp [State.reset]
  record _ hr := by simp [State.reset] at hr

/-! ### What a host operation can lead to -/

/-- Everything `push_input`, `pop_output`, `get_memory` and `set_memory` can do to the state (60_exceptions.md R215 to
R226). -/
inductive HostEffect (s : State) : State → Prop where
  /-- The operation was refused: nothing changed. -/
  | refused (faulted : s.status = .faulted) : HostEffect s s
  /-- The operation raised a fault, which was taken. -/
  | fault (c : Cause) (acts : s.status ≠ .faulted) (legal : causeLegal s.cfg.memCapacity .host c) :
      HostEffect s (takeFault .host c s)
  /-- `push_input`. -/
  | pushed (v : Word) (acts : s.status ≠ .faulted) : HostEffect s { s with inq := s.inq ++ [v] }
  /-- `pop_output`. -/
  | popped (v : Word) (q : List Word) (acts : s.status ≠ .faulted) (oldest : s.outq = v :: q) :
      HostEffect s { s with outq := q }
  /-- `get_memory`. -/
  | grown (a : Int) (acts : s.status ≠ .faulted) (legal : addrFault s a = none) :
      HostEffect s { s with ext := extTouch s.ext a.toNat }
  /-- `set_memory`. -/
  | written (a : Int) (v : Word) (acts : s.status ≠ .faulted) (legal : addrFault s a = none) :
      HostEffect s { s with mem := memSet s.mem a.toNat v, ext := extTouch s.ext a.toNat }

/-- A mutating operation is refused, or has the effect it has outside Faulted. -/
theorem HostEffect.unlessFaulted {α : Type} {s : State} {op : State → Reply α × State}
    (h : s.status ≠ .faulted → HostEffect s (op s).2) : HostEffect s (unlessFaulted s op).2 := by
  by_cases hs : s.status = .faulted
  · rw [unlessFaulted_refuses hs]
    exact .refused hs
  · rw [unlessFaulted_acts hs]
    exact h hs

theorem hostEffect_pushInput (v : Word) (s : State) : HostEffect s (pushInput v s).2 :=
  .unlessFaulted fun hs => .pushed v hs

theorem hostEffect_popOutput (s : State) : HostEffect s (popOutput s).2 := by
  refine .unlessFaulted fun hs => ?_
  cases hq : s.outq with
  | nil => exact .fault .queueUnderflow hs rfl
  | cons v q => exact .popped v q hs hq

theorem hostEffect_getMemory (a : Word) (s : State) : HostEffect s (getMemory a s).2 := by
  refine .unlessFaulted fun hs => ?_
  rw [memRead_eq]
  cases hf : addrFault s a.toInt with
  | none => exact .grown a.toInt hs hf
  | some c => exact .fault c hs (addrFault_legal hf .host)

theorem hostEffect_setMemory (a v : Word) (s : State) : HostEffect s (setMemory a v s).2 := by
  refine .unlessFaulted fun hs => ?_
  rw [memWrite_eq]
  cases hf : addrFault s a.toInt with
  | none => exact .written a.toInt v hs hf
  | some c => exact .fault c hs (addrFault_legal hf .host)

theorem HostEffect.registers {s t : State} (h : HostEffect s t) :
    t.pc = s.pc ∧ t.rb = s.rb ∧ t.cfg = s.cfg ∧ (t.status = s.status ∨ t.status = .faulted) := by
  cases h with
  | fault => exact ⟨rfl, rfl, rfl, .inr rfl⟩
  | _ => exact ⟨rfl, rfl, rfl, .inl rfl⟩

/-- Settles O53: each host operation has one of the host effects, and none touches a register. -/
theorem hostLeavesRegisters : Obligations.HostLeavesRegisters := by
  rintro s t (⟨v, rfl⟩ | rfl | ⟨a, rfl⟩ | ⟨a, v, rfl⟩)
  · exact (hostEffect_pushInput v s).registers
  · exact (hostEffect_popOutput s).registers
  · exact (hostEffect_getMemory a s).registers
  · exact (hostEffect_setMemory a v s).registers

end Sys2Proof.Machine

/-!
PROOFS of the family 20_memory.md. First the three ranges of an address and what each operation does in them; then what
the extent can do over a step, a run and a host operation. Each obligation stands after its lemmas.
-/

namespace Sys2Proof.Machine

/-! ### The address check in its three ranges (R52) -/

theorem addrFault_of_neg {s : State} {a : Int} (h : a < 0) : addrFault s a = some (.negativeAddress a) := if_pos h

theorem addrFault_of_beyond {s : State} {a : Int} (h0 : 0 ≤ a) (h : (s.cfg.memCapacity : Int) ≤ a) :
    addrFault s a = some (.addressBeyondCapacity a) :=
  (if_neg (by omega)).trans (if_pos h)

theorem addrFault_of_existing {s : State} {a : Int} (h0 : 0 ≤ a) (h : a < s.cfg.memCapacity) :
    addrFault s a = none :=
  (if_neg (by omega)).trans (if_neg (by omega))

/-! ### Reads, writes and `Peek` -/

theorem memRead_ok {s : State} {a : Int} (h : addrFault s a = none) :
    memRead a s = .ok (memGet s.mem a.toNat) { s with ext := extTouch s.ext a.toNat } := by
  simp only [memRead_eq, h]

theorem memRead_raise {s : State} {a : Int} {c : Cause} (h : addrFault s a = some c) : memRead a s = .raise c s := by
  simp only [memRead_eq, h]

theorem memWrite_ok {s : State} {a : Int} (h : addrFault s a = none) (v : Word) :
    memWrite a v s = .ok () { s with mem := memSet s.mem a.toNat v, ext := extTouch s.ext a.toNat } := by
  simp only [memWrite_eq, h]

theorem memWrite_raise {s : State} {a : Int} {c : Cause} (h : addrFault s a = some c) (v : Word) :
    memWrite a v s = .raise c s := by
  simp only [memWrite_eq, h]

/-- What a canonical memory reads after a write: the word written at its address, every other cell as before. -/
theorem memGet_memSet {m : Memory} (h : m.wf) (a : Nat) (v : Word) (b : Nat) :
    memGet (memSet m a v) b = if b = a then v else memGet m b := by
  split
  · rename_i hb
    rw [hb, memGet_memSet_self h]
  · rename_i hb
    exact memGet_memSet_ne v hb

/-- Within the invariant a cell at or beyond the extent reads 0 (10_state.md R25). -/
theorem StateInv.memGet_eq_zero {s : State} {a : Nat} (h : StateInv s) (ha : s.ext ≤ a) : memGet s.mem a = 0 :=
  memGet_of_listed h.listed ha

/-- Settles O5: each range of the address check has one answer, and nothing at or beyond the extent is listed. -/
theorem memReadChecksGrowsReads : Obligations.MemReadChecksGrowsReads := by
  intro a s
  refine ⟨fun hneg => ?_, fun h0 hbeyond => ?_, fun h0 hlt => ?_, fun hinv hext => ?_⟩
  · exact memRead_raise (addrFault_of_neg hneg)
  · exact memRead_raise (addrFault_of_beyond h0 hbeyond)
  · exact memRead_ok (addrFault_of_existing h0 hlt)
  · exact hinv.memGet_eq_zero (by omega)

/-- Settles O6: the memory after the write is `memSet`'s, which is canonical and differs in the one cell only. -/
theorem memWriteChecksGrowsWrites : Obligations.MemWriteChecksGrowsWrites := by
  intro a v s
  refine ⟨fun hneg => ?_, fun h0 hbeyond => ?_, fun h0 hlt hinv => ?_⟩
  · exact memWrite_raise (addrFault_of_neg hneg) v
  · exact memWrite_raise (addrFault_of_beyond h0 hbeyond) v
  · refine ⟨memSet s.mem a.toNat v, wf_memSet hinv.canonical _ _, memWrite_ok (addrFault_of_existing h0 hlt) v,
      memGet_memSet hinv.canonical _ _, fun b hext hne => ?_⟩
    rw [memGet_memSet_ne v hne, hinv.memGet_eq_zero hext]

/-- Settles O8: within the invariant `Peek` gives the cell's word, which is what the read of an existing address
answers. -/
theorem peekAgreesWithRead : Obligations.PeekAgreesWithRead := by
  intro s a hinv hlt
  rw [peek_eq_memGet hinv a]
  exact ⟨rfl, _, memRead_ok (addrFault_of_existing (Int.natCast_nonneg a) (by omega))⟩

/-! ### Operand resolution -/

/-- Position and relative mode have an effective address, and which (R64, R66 to R68). -/
theorem effAddr_eq_some {m : Mode} {raw rb : Word} {a : Int} :
    effAddr m raw rb = some a ↔ (m = .position ∧ a = raw.toInt) ∨ (m = .relative ∧ a = raw.toInt + rb.toInt) := by
  cases m <;> simp [effAddr, eq_comm]

theorem resolveRead_of_effAddr {m : Mode} {raw : Word} {s : State} {a : Int} (h : effAddr m raw s.rb = some a) :
    resolveRead m raw s = memRead a s := by
  unfold resolveRead
  rw [h]

theorem resolveWrite_ok {k : Nat} {m : Mode} {raw : Word} {s : State} {a : Int} (h : effAddr m raw s.rb = some a)
    (hf : addrFault s a = none) : resolveWrite k m raw s = .ok a.toNat s := by
  simp only [resolveWrite, h, checkAddr_eq, hf]

theorem resolveWrite_raise {k : Nat} {m : Mode} {raw : Word} {s : State} {a : Int} {c : Cause}
    (h : effAddr m raw s.rb = some a) (hf : addrFault s a = some c) : resolveWrite k m raw s = .raise c s := by
  simp only [resolveWrite, h, checkAddr_eq, hf]

/-- Settles O9: immediate mode has no effective address; in the other two the resolution is the read at it. -/
theorem resolveReadFollowsMode : Obligations.ResolveReadFollowsMode := by
  intro raw s
  refine ⟨rfl, fun m a hm => ?_⟩
  rw [resolveRead_of_effAddr (effAddr_eq_some.mpr hm)]
  refine ⟨fun hneg => ?_, fun hbeyond => ?_, fun h0 hlt => ?_⟩
  · exact memRead_raise (addrFault_of_neg hneg)
  · exact memRead_raise (addrFault_of_beyond (by omega) hbeyond)
  · exact memRead_ok (addrFault_of_existing h0 hlt)

/-- Settles O10: the resolution is the check of the effective address. -/
theorem resolveWriteFollowsMode : Obligations.ResolveWriteFollowsMode := by
  intro k raw s m a hm
  have haddr := effAddr_eq_some.mpr hm
  refine ⟨fun hneg => ?_, fun h0 hbeyond => ?_, fun h0 hlt => ?_⟩
  · exact resolveWrite_raise haddr (addrFault_of_neg hneg)
  · exact resolveWrite_raise haddr (addrFault_of_beyond h0 hbeyond)
  · exact resolveWrite_ok haddr (addrFault_of_existing h0 hlt)

/-! ### The extent over a step, a run and a host operation (R55) -/

theorem Effect.ext_le {i : Instr} {s t : State} (h : Effect i s t) : s.ext ≤ t.ext := by
  cases h with
  | blocked | halted => exact Nat.le_refl _
  | _ => assumption

theorem step_ext_le {s t : State} (h : step s = .next t) : s.ext ≤ t.ext := by
  obtain ⟨-, ⟨c, e, le, -, -, rfl⟩ | ⟨i, -, -, he⟩⟩ := step_cases h
  · exact le
  · exact Nat.le_trans (le_extTouch s.ext s.pc) he.ext_le

/-- A step with its outcome named is a step. -/
theorem step_of_coreStep {s t : State} {r : StepResult} (h : coreStep s = some (r, t)) : step s = .next t := by
  unfold coreStep at h
  cases hs : step s with
  | next u =>
    simp only [hs] at h
    split at h
    · simp_all
    · split at h <;> simp_all
  | fault f => simp [hs] at h
  | refused f => simp [hs] at h

/-- What every step keeps, a run under any bound keeps (40_execution_cycle.md R130, R133). -/
theorem run_keeps {P : State → Prop} (hstep : ∀ s t, P s → step s = .next t → P t) (n : Nat) {s : State} (h : P s) :
    P (run n s).2 := by
  induction n generalizing s with
  | zero => exact h
  | succ n ih =>
    unfold run
    cases hc : coreStep s with
    | none => exact h
    | some p =>
      obtain ⟨r, t⟩ := p
      have ht : P t := hstep s t h (step_of_coreStep hc)
      cases r with
      | stepped => exact ih ht
      | _ => exact ht

theorem run_ext_le (n : Nat) (s : State) : s.ext ≤ (run n s).2.ext :=
  run_keeps (P := fun t => s.ext ≤ t.ext) (fun _ _ h hstep => Nat.le_trans h (step_ext_le hstep)) n (Nat.le_refl _)

theorem HostEffect.ext_le {s t : State} (h : HostEffect s t) : s.ext ≤ t.ext := by
  cases h with
  | grown | written => exact le_extTouch _ _
  | _ => exact Nat.le_refl _

/-- Settles O45: every effect of a step and of a host operation leaves the extent or grows it, and a run is steps. -/
theorem extentNeverShrinks : Obligations.ExtentNeverShrinks := by
  rintro s t (hstep | ⟨n, rfl⟩ | ⟨v, rfl⟩ | rfl | ⟨a, rfl⟩ | ⟨a, v, rfl⟩)
  · exact step_ext_le hstep
  · exact run_ext_le n s
  · exact (hostEffect_pushInput v s).ext_le
  · exact (hostEffect_popOutput s).ext_le
  · exact (hostEffect_getMemory a s).ext_le
  · exact (hostEffect_setMemory a v s).ext_le

end Sys2Proof.Machine

/-!
PROOFS of the family 30_encoding.md. First the digits of an instruction word and the two directions between a word and
its instruction, then the decoder check by check, then the assembler and the loader. Each obligation stands after its
lemmas.
-/

namespace Sys2Proof.Machine

/-! ### The instruction word and its digits (R81, R94, R95) -/

/-- The law of the instruction word holds of every instruction (R80, R81, R90, R95). -/
theorem encodingBound (i : Instr) : Laws.EncodingBound.Statement i := by
  cases i with
  | add m1 m2 m3 => exact Laws.EncodingBound.add m1 m2 m3
  | mul m1 m2 m3 => exact Laws.EncodingBound.mul m1 m2 m3
  | input m1 m2 m3 => exact Laws.EncodingBound.input m1 m2 m3
  | output m1 m2 m3 => exact Laws.EncodingBound.output m1 m2 m3
  | jumpIfTrue m1 m2 m3 => exact Laws.EncodingBound.jumpIfTrue m1 m2 m3
  | jumpIfFalse m1 m2 m3 => exact Laws.EncodingBound.jumpIfFalse m1 m2 m3
  | lessThan m1 m2 m3 => exact Laws.EncodingBound.lessThan m1 m2 m3
  | equals m1 m2 m3 => exact Laws.EncodingBound.equals m1 m2 m3
  | adjustBase m1 m2 m3 => exact Laws.EncodingBound.adjustBase m1 m2 m3
  | halt m1 m2 m3 => exact Laws.EncodingBound.halt m1 m2 m3

/-- The decimal pattern `CBAOO` (R81). -/
theorem encodeNat_eq (i : Instr) :
    encodeNat i = opcodeOf i + 100 * digitOfMode (modesOf i).1 + 1000 * digitOfMode (modesOf i).2.1 +
      10000 * digitOfMode (modesOf i).2.2 := rfl

/-- The digits of an instruction's word are its opcode and the digits of its modes. -/
theorem encodeNat_digits (i : Instr) :
    encodeNat i % 100 = opcodeOf i ∧ dec (encodeNat i) 2 = digitOfMode (modesOf i).1 ∧
      dec (encodeNat i) 3 = digitOfMode (modesOf i).2.1 ∧ dec (encodeNat i) 4 = digitOfMode (modesOf i).2.2 := by
  obtain ⟨-, -, hop, -⟩ := encodingBound i
  rw [encode_toNat] at hop
  have h1 := Laws.EncodingBound.digitOfMode_le (modesOf i).1
  have h2 := Laws.EncodingBound.digitOfMode_le (modesOf i).2.1
  have h3 := Laws.EncodingBound.digitOfMode_le (modesOf i).2.2
  simp only [dec, encodeNat_eq] at hop ⊢
  omega

theorem encode_toInt_nonneg (i : Instr) : 0 ≤ (encode i).toInt := by
  have := encodeNat_lt i
  rw [BitVec.toInt_eq_toNat_of_lt] <;> rw [encode_toNat] <;> omega

theorem decode_encode {i : Instr} (h : i.wellFormed = true) : decode (encode i) = .ok i := by
  rw [decode_ok, encode_toNat]
  exact ⟨encode_toInt_nonneg i, encodeNat_lt i, h, encodeNat_digits i⟩

/-- A word of at most five digits is put together from its two low digits and its three mode digits. -/
theorem eq_sum_of_digits {n : Nat} (h : n < 100000) :
    n = n % 100 + 100 * dec n 2 + 1000 * dec n 3 + 10000 * dec n 4 := by
  simp only [dec]
  omega

theorem encode_of_decode {w : Word} {i : Instr} (h : decode w = .ok i) : encode i = w := by
  obtain ⟨-, hlt, -, hop, h1, h2, h3⟩ := decode_ok.mp h
  apply BitVec.eq_of_toNat_eq
  rw [encode_toNat, eq_sum_of_digits hlt, hop, h1, h2, h3, encodeNat_eq]

/-- Settles O1: the digits of the encoded word are the opcode and the mode digits the decoder looks for. -/
theorem decodeOfEncodeIsIdentity : Obligations.DecodeOfEncodeIsIdentity :=
  fun _ hwf => decode_encode hwf

/-- Settles O2: a decoded word has at most five digits, so its opcode and mode digits are all of it. -/
theorem encodeOfDecodeIsIdentity : Obligations.EncodeOfDecodeIsIdentity := by
  intro w i h
  obtain ⟨-, -, hwf, -⟩ := decode_ok.mp h
  obtain ⟨hlow, hhigh, -⟩ := encodingBound i
  rw [encode_of_decode h] at hlow hhigh
  exact ⟨encode_of_decode h, hwf, hlow, hhigh⟩

/-- Settles O4: the decoder, run on the ten words. -/
theorem sampleWordsDecode : Obligations.SampleWordsDecode := by
  unfold Obligations.SampleWordsDecode
  decide

/-! ### The decoder, check by check (R87) -/

/-- Each of the digits 0, 1 and 2 names a mode (R84). -/
theorem exists_mode_of_digit {d : Nat} (h : d ∈ [0, 1, 2]) : ∃ m, d = digitOfMode m := by
  cases hm : modeOfDigit d with
  | some m => exact ⟨m, modeOfDigit_eq_some.mp hm⟩
  | none =>
    have := modeOfDigit_eq_none.mp hm
    simp only [List.mem_cons, List.not_mem_nil, or_false] at h
    omega

theorem modeAt_of_bad_digit {w k : Nat} (h : dec w (k + 1) ∉ [0, 1, 2]) :
    modeAt w k = .error (.invalidParameterMode k (dec w (k + 1))) := by
  refine modeAt_error.mpr ⟨?_, rfl⟩
  simp only [List.mem_cons, List.not_mem_nil, or_false] at h
  omega

/-- The write-target check in terms of the opcode and the mode digits (R86). -/
theorem checkWriteTarget_eq (i : Instr) :
    checkWriteTarget i =
      if opcodeOf i ∈ [1, 2, 7, 8] ∧ digitOfMode (modesOf i).2.2 = 1 then .error (.immediateWriteTarget 3)
      else if opcodeOf i = 3 ∧ digitOfMode (modesOf i).1 = 1 then .error (.immediateWriteTarget 1)
      else .ok i := by
  cases i with
  | add _ _ m3 | mul _ _ m3 | lessThan _ _ m3 | equals _ _ m3 => cases m3 <;> rfl
  | input m1 _ _ => cases m1 <;> rfl
  | output | jumpIfTrue | jumpIfFalse | adjustBase | halt => rfl

/-- Settles O3: one case per check of R87, in its order. -/
theorem decodeFollowsCheckOrder : Obligations.DecodeFollowsCheckOrder := by
  intro w
  unfold decode
  by_cases hneg : w.toInt < 0
  · rw [if_pos hneg, if_pos hneg]
    rfl
  rw [if_neg hneg, if_neg hneg]
  by_cases hop : w.toNat % 100 ∉ [1, 2, 3, 4, 5, 6, 7, 8, 9, 99]
  · rw [if_pos hop, instrOfOpcode_eq_none.mpr hop]
    rfl
  rw [if_neg hop]
  obtain ⟨mk, hmk⟩ := Option.ne_none_iff_exists'.mp (mt instrOfOpcode_eq_none.mp hop)
  rw [hmk]
  simp only [decodeModes]
  by_cases h1 : dec w.toNat 2 ∉ [0, 1, 2]
  · rw [if_pos h1, modeAt_of_bad_digit h1]
    rfl
  rw [if_neg h1]
  obtain ⟨m1, hm1⟩ := exists_mode_of_digit (not_not.mp h1)
  simp only [modeAt_ok.mpr hm1]
  by_cases h2 : dec w.toNat 3 ∉ [0, 1, 2]
  · rw [if_pos h2, modeAt_of_bad_digit h2]
    rfl
  rw [if_neg h2]
  obtain ⟨m2, hm2⟩ := exists_mode_of_digit (not_not.mp h2)
  simp only [modeAt_ok.mpr hm2]
  by_cases h3 : dec w.toNat 4 ∉ [0, 1, 2]
  · rw [if_pos h3, modeAt_of_bad_digit h3]
    rfl
  rw [if_neg h3]
  obtain ⟨m3, hm3⟩ := exists_mode_of_digit (not_not.mp h3)
  simp only [modeAt_ok.mpr hm3]
  by_cases hhigh : 100000 ≤ w.toNat
  · rw [if_pos hhigh, if_pos hhigh]
    rfl
  rw [if_neg hhigh, if_neg hhigh, checkWriteTarget_eq]
  obtain ⟨hopc, hmodes⟩ := instrOfOpcode_some hmk m1 m2 m3
  rw [hopc, hmodes, hm1, hm2, hm3]
  split
  · rfl
  split
  · rfl
  · simp only [Except.map, hopc, hmodes]

/-! ### No instruction is without an answer, and the assembler's words (R94, R96) -/

/-- Settles O36: every instruction has an effect, and the fetch of a Runnable core faults or gives an instruction. -/
theorem everyInstructionAnswers : Obligations.EveryInstructionAnswers := by
  refine ⟨fun i s => ?_, fun s => step_next⟩
  obtain ⟨t, ht, -⟩ := exec_effect i s
  exact ⟨t, ht⟩

/-- Settles O59: what assembles is well-formed, so its word decodes, and it has one operand per parameter. -/
theorem assembledWordsDecode : Obligations.AssembledWordsDecode := by
  intro n mk ops ws _ h
  unfold assemble at h
  obtain ⟨⟨hlen, hwf⟩, hws⟩ := Option.ite_none_right_eq_some.mp h
  obtain rfl := Option.some.inj hws
  refine ⟨_, rfl, decode_encode hwf, ?_⟩
  simp [hlen, instrLength, Nat.add_comm]

/-! ### Program text (R98, R99) -/

/-- An item holds nothing but digits and a minus sign. -/
theorem ItemText.not_mem {cs : List Char} {v : Int} {c : Char} (h : ItemText cs v) (hc : digitValue c = none)
    (hminus : c ≠ '-') : c ∉ cs := by
  obtain ⟨ds, -, ⟨rfl, -⟩ | ⟨rfl, -⟩⟩ := h
  · exact not_mem_decimalText hc ds
  · exact List.not_mem_cons_of_ne_of_not_mem hminus (not_mem_decimalText hc ds)

/-- Items that are as many as the words hold nothing but digits and minus signs. -/
theorem not_mem_items {items : List (List Char)} {ws : List Word} {c : Char} (hlen : items.length = ws.length)
    (h : ∀ p ∈ items.zip ws, ItemText p.1 p.2.toInt) (hc : digitValue c = none) (hminus : c ≠ '-') :
    ∀ cs ∈ items, c ∉ cs := by
  intro cs hcs
  rw [← List.map_fst_zip hlen.le] at hcs
  obtain ⟨p, hp, rfl⟩ := List.mem_map.mp hcs
  exact (h p hp).not_mem hc hminus

theorem not_mem_intercalate {items : List (List Char)} {c : Char} (hcomma : c ≠ ',') (h : ∀ cs ∈ items, c ∉ cs) :
    c ∉ List.intercalate [','] items := by
  induction items with
  | nil => simp [List.intercalate]
  | cons cs items ih =>
    obtain ⟨hcs, hitems⟩ := List.forall_mem_cons.mp h
    cases items with
    | nil => simpa [List.intercalate] using hcs
    | cons ds items =>
      rw [List.intercalate_cons_cons]
      simp [hcs, hcomma, ih hitems]

theorem lineText_of_loadLine {line : List Char} {ws : List Word} (h : loadLine line = some ws) : LineText line ws := by
  obtain ⟨lineEnd, hline, hend⟩ := dropLineEnd_append line
  refine ⟨dropLineEnd line, lineEnd, hline, hend, ?_⟩
  rw [loadLine_eq] at h
  split at h
  · rename_i hempty
    exact .inl ⟨hempty, (Option.some.inj h).symm⟩
  · exact .inr ⟨_, splitAtCommas_ne_nil _, (intercalate_splitAtCommas _).symm, itemWords_eq_some.mp h⟩

theorem loadLine_of_lineText {line : List Char} {ws : List Word} (h : LineText line ws) : loadLine line = some ws := by
  obtain ⟨body, lineEnd, rfl, hend, ⟨rfl, rfl⟩ | ⟨items, hne, rfl, hlen, hitems⟩⟩ := h
  · rw [loadLine_eq, dropLineEnd_of_append List.not_mem_nil List.not_mem_nil hend, if_pos rfl]
  · have absent {c : Char} (hc : digitValue c = none) (hminus : c ≠ '-') := not_mem_items hlen hitems hc hminus
    have hsplit := splitAtCommas_intercalate hne (absent (by decide) (by decide))
    have hwords := itemWords_eq_some.mpr ⟨hlen, hitems⟩
    rw [loadLine_eq, dropLineEnd_of_append (not_mem_intercalate (by decide) (absent (by decide) (by decide)))
      (not_mem_intercalate (by decide) (absent (by decide) (by decide))) hend, hsplit, if_neg, hwords]
    intro hempty
    rw [hempty] at hsplit
    subst hsplit
    cases hwords

/-- Settles O60: the loader's line end, its split at the commas and its items are each those of the text. -/
theorem loaderAcceptsExactlyProgramText : Obligations.LoaderAcceptsExactlyProgramText :=
  fun _ _ => ⟨lineText_of_loadLine, loadLine_of_lineText⟩

/-- A program's text holds no character but digits, commas, minus signs and a line end's. -/
theorem LineText.not_mem {line : List Char} {ws : List Word} {c : Char} (h : LineText line ws)
    (hdigit : digitValue c = none) (hc : c ∉ [',', '-', '\n', '\r']) : c ∉ line := by
  simp only [List.mem_cons, List.not_mem_nil, or_false, not_or] at hc
  obtain ⟨hcomma, hminus, hn, hr⟩ := hc
  obtain ⟨body, lineEnd, rfl, hend, hbody⟩ := h
  have hlineEnd : c ∉ lineEnd := by
    simp only [List.mem_cons, List.not_mem_nil, or_false] at hend
    obtain rfl | rfl | rfl := hend <;> simp [hn, hr]
  refine List.not_mem_append ?_ hlineEnd
  obtain ⟨rfl, -⟩ | ⟨items, -, rfl, hlen, hitems⟩ := hbody
  · exact List.not_mem_nil
  · exact not_mem_intercalate hcomma (not_mem_items hlen hitems hdigit hminus)

theorem digitValue_eq_none {c : Char} (h : c ∉ ['0', '1', '2', '3', '4', '5', '6', '7', '8', '9']) :
    digitValue c = none := by
  refine Option.eq_none_iff_forall_ne_some.mpr fun d hd => h ?_
  obtain ⟨hlt, rfl⟩ := digitValue_eq_some.mp hd
  exact (show ∀ d < 10, Nat.digitChar d ∈ ['0', '1', '2', '3', '4', '5', '6', '7', '8', '9'] by decide) d hlt

/-- Settles O58: no program's text holds such a character, and the loader takes nothing else. -/
theorem otherCharacterRefusesLine : Obligations.OtherCharacterRefusesLine := by
  intro before after c hc
  refine Option.eq_none_iff_forall_ne_some.mpr fun ws hws => ?_
  have hdigit : digitValue c = none := digitValue_eq_none fun h => hc (List.mem_append_left _ h)
  have hother : c ∉ [',', '-', '\n', '\r'] := fun h =>
    hc (List.mem_append_right ['0', '1', '2', '3', '4', '5', '6', '7', '8', '9'] h)
  exact (lineText_of_loadLine hws).not_mem hdigit hother (by simp)

end Sys2Proof.Machine

/-!
PROOFS of the family 40_execution_cycle.md. First the fetch and the step in the cases of the word at `pc`, then what a
blocked, a faulting and an advancing step do, then the four outcomes and the run built from them. Each obligation stands
after its lemmas.
-/

namespace Sys2Proof.Machine

/-! ### The fetch and the step, by the word at `pc` (R122 to R124) -/

theorem addrFault_pc_eq_none {s : State} : addrFault s s.pc = none ↔ s.pc < s.cfg.memCapacity :=
  ⟨addrFault_bound, fun h => addrFault_of_existing (Int.natCast_nonneg _) (by omega)⟩

theorem fetchInstr_of_decode {s : State} {i : Instr} (hpc : s.pc < s.cfg.memCapacity)
    (hd : decode (memGet s.mem s.pc) = .ok i) : fetchInstr s = .ok i { s with ext := extTouch s.ext s.pc } := by
  simp only [fetchInstr_eq, addrFault_pc_eq_none.mpr hpc, hd]

theorem fetchInstr_of_decode_error {s : State} {c : Cause} (hpc : s.pc < s.cfg.memCapacity)
    (hd : decode (memGet s.mem s.pc) = .error c) :
    fetchInstr s = .raise c { s with ext := extTouch s.ext s.pc } := by
  simp only [fetchInstr_eq, addrFault_pc_eq_none.mpr hpc, hd]

theorem fetchInstr_beyond {s : State} (hpc : s.cfg.memCapacity ≤ s.pc) :
    fetchInstr s = .raise (.addressBeyondCapacity s.pc) s := by
  simp only [fetchInstr_eq, addrFault_of_beyond (Int.natCast_nonneg _) (Int.ofNat_le.mpr hpc)]

theorem step_of_decode {s : State} {i : Instr} (hrun : s.status = .runnable) (hpc : s.pc < s.cfg.memCapacity)
    (hd : decode (memGet s.mem s.pc) = .ok i) : step s = exec i { s with ext := extTouch s.ext s.pc } := by
  simp only [step_runnable hrun, fetchInstr_of_decode hpc hd]

theorem step_of_decode_error {s : State} {c : Cause} (hrun : s.status = .runnable)
    (hpc : s.pc < s.cfg.memCapacity) (hd : decode (memGet s.mem s.pc) = .error c) :
    step s = .next { takeFault .core c s with ext := extTouch s.ext s.pc } := by
  simp only [step_runnable hrun, fetchInstr_of_decode_error hpc hd]
  rfl

theorem step_beyond {s : State} (hrun : s.status = .runnable) (hpc : s.cfg.memCapacity ≤ s.pc) :
    step s = .next (takeFault .core (.addressBeyondCapacity s.pc) s) := by
  simp only [step_runnable hrun, fetchInstr_beyond hpc]

/-- An access below the extent grows nothing (20_memory.md R53). -/
theorem extTouch_of_lt {e a : Nat} (h : a < e) : extTouch e a = e := if_neg (by omega)

/-- Below the extent the fetch leaves the state as it is. -/
theorem step_eq_exec {s : State} {i : Instr} (hrun : s.status = .runnable) (hpc : s.pc < s.cfg.memCapacity)
    (hext : s.pc < s.ext) (hd : decode (memGet s.mem s.pc) = .ok i) : step s = exec i s := by
  rw [step_of_decode hrun hpc hd, extTouch_of_lt hext]

/-- Settles O37: the fetch grows the extent over `pc`, which is no growth below it. -/
theorem stepRunsDecodedInstruction : Obligations.StepRunsDecodedInstruction :=
  fun _ _ hrun hpc hd => ⟨step_of_decode hrun hpc hd, fun hext => step_eq_exec hrun hpc hext hd⟩

/-- Settles O38: the fetch raises at or beyond the capacity, and below it only the decoder can. -/
theorem stepTakesFetchAndDecodeFaults : Obligations.StepTakesFetchAndDecodeFaults :=
  fun _ hrun => ⟨step_beyond hrun, fun _ hpc hd => step_of_decode_error hrun hpc hd⟩

/-- The word 0 is no instruction (30_encoding.md R83). -/
theorem decode_zero : decode 0 = .error (.invalidOpcode 0) := by decide

/-- Settles O39: beyond the extent, too, the word at `pc` is 0, which does not decode. -/
theorem runningOffTheEndFaults : Obligations.RunningOffTheEndFaults := by
  intro s hinv hrun hpc hzero
  have hword : memGet s.mem s.pc = 0 := hzero.elim hinv.memGet_eq_zero id
  exact ⟨_, step_of_decode_error hrun hpc (hword ▸ decode_zero), rfl, rfl, rfl⟩

/-! ### A blocked step (R125) -/

/-- Within the invariant an instruction is fetched only from below the extent, all else being 0. -/
theorem StateInv.pc_lt_ext {s : State} {i : Instr} (h : StateInv s) (hd : decode (memGet s.mem s.pc) = .ok i) :
    s.pc < s.ext := by
  by_contra hext
  rw [h.memGet_eq_zero (by omega), decode_zero] at hd
  cases hd

theorem StateInv.pc_lt_capacity {s : State} {i : Instr} (h : StateInv s)
    (hd : decode (memGet s.mem s.pc) = .ok i) : s.pc < s.cfg.memCapacity :=
  Nat.lt_of_lt_of_le (h.pc_lt_ext hd) h.extent

theorem StateInv.step_eq_exec {s : State} {i : Instr} (h : StateInv s) (hrun : s.status = .runnable)
    (hd : decode (memGet s.mem s.pc) = .ok i) : Machine.step s = exec i s :=
  Machine.step_eq_exec hrun (h.pc_lt_capacity hd) (h.pc_lt_ext hd) hd

theorem exec_input_of_no_input {i : Instr} {s : State} (op : opcodeOf i = 3) (hin : nextInput s = none) :
    exec i s = .next s := by
  obtain ⟨m1, m2, m3, rfl⟩ := exists_modes_of_opcodeOf op rfl
  simp only [exec, execInput, hin]

/-- A step is Blocked exactly where it fetches an IN and no input is available. -/
theorem stepBlocks_iff {s : State} :
    stepBlocks s = true ↔ s.pc < s.cfg.memCapacity ∧
      ∃ i, decode (memGet s.mem s.pc) = .ok i ∧ opcodeOf i = 3 ∧ nextInput s = none := by
  unfold stepBlocks
  by_cases hpc : s.pc < s.cfg.memCapacity
  · cases hd : decode (memGet s.mem s.pc) with
    | ok i =>
      have hin : nextInput { s with ext := extTouch s.ext s.pc } = nextInput s := rfl
      simp [fetchInstr_of_decode hpc hd, hin, hpc]
    | error c => simp [fetchInstr_of_decode_error hpc hd]
  · simp [fetchInstr_beyond (Nat.le_of_not_lt hpc), hpc]

/-- Within the invariant a Blocked step changes nothing, not even the extent. -/
theorem StateInv.step_of_blocks {s : State} (h : StateInv s) (hrun : s.status = .runnable)
    (hb : stepBlocks s = true) : Machine.step s = .next s := by
  obtain ⟨-, i, hd, op, hin⟩ := stepBlocks_iff.mp hb
  rw [h.step_eq_exec hrun hd, exec_input_of_no_input op hin]

/-- Settles O17: no input is available, so IN answers the state itself and the step is Blocked. -/
theorem inputBlocksOnEmptyQueue : Obligations.InputBlocksOnEmptyQueue := by
  intro m1 m2 m3 s hcfg hinq
  have hin : nextInput s = none := nextInput_eq_none.mpr ⟨hcfg, hinq⟩
  refine ⟨exec_input_of_no_input rfl hin, fun hinv hrun hpc hd => ?_⟩
  have hb : stepBlocks s = true := stepBlocks_iff.mpr ⟨hpc, _, hd, rfl, hin⟩
  exact ⟨hinv.step_of_blocks hrun hb, hb⟩

/-! ### A faulting step (R127, R129) -/

theorem Effect.faultTaken {i : Instr} {s t : State} (h : Effect i s t) (hs : s.status ≠ .faulted)
    (ht : t.status = .faulted) : ∃ c, FaultTaken c s t := by
  cases h with
  | fault c e le => exact ⟨c, e, le, rfl⟩
  | halted => simp at ht
  | _ => exact absurd ht hs

/-- A step into Faulted took a fault from the state it started in. -/
theorem step_faultTaken {s t : State} (h : step s = .next t) (ht : t.status = .faulted) : ∃ c, FaultTaken c s t := by
  obtain ⟨hrun, ⟨c, e, le, -, -, rfl⟩ | ⟨i, -, -, he⟩⟩ := step_cases h
  · exact ⟨c, e, le, rfl⟩
  · obtain ⟨c, e, le, rfl⟩ := he.faultTaken (by simp [hrun]) ht
    exact ⟨c, e, Nat.le_trans (le_extTouch _ _) le, rfl⟩

theorem FaultTaken.fault_eq {c : Cause} {s t : State} (h : FaultTaken c s t) :
    t.fault = some { cause := c, origin := .core, pc := s.pc } := by
  obtain ⟨e, -, rfl⟩ := h
  rfl

/-- Settles O28: a taken fault writes the status and the record, and else only the extent grows. -/
theorem faultsArePrecise : Obligations.FaultsArePrecise := by
  intro s t hstep ht
  obtain ⟨c, e, le, rfl⟩ := step_faultTaken hstep ht
  exact ⟨rfl, rfl, rfl, rfl, rfl, rfl, le, c, rfl⟩

/-! ### The sequential advance (R128) -/

/-- The opcode gives the length (30_encoding.md R89, R93). -/
theorem instrLength_of_sequential {i : Instr} (h : opcodeOf i ∉ [5, 6, 99]) :
    instrLength i = if opcodeOf i ∈ [1, 2, 7, 8] then 4 else 2 := by
  cases i with
  | jumpIfTrue | jumpIfFalse | halt => simp [opcodeOf] at h
  | _ => rfl

theorem Effect.pc_of_sequential {i : Instr} {s t : State} (h : Effect i s t) (ht : t.status = .runnable)
    (hop : opcodeOf i ∉ [5, 6, 99]) (hb : ¬ (opcodeOf i = 3 ∧ nextInput s = none)) :
    t.pc = s.pc + if opcodeOf i ∈ [1, 2, 7, 8] then 4 else 2 := by
  cases h with
  | fault => simp at ht
  | blocked op empty => exact absurd ⟨op, empty⟩ hb
  | wrote d v e op => rw [if_pos (by simpa using op)]
  | received d v q e op | sent v e op | rebased r e op => simp [op]
  | jumped p e op =>
    simp only [List.mem_cons, List.not_mem_nil, or_false] at hop
    omega
  | halted op => simp [op] at hop

/-- Settles O32: each effect of such an instruction advances `pc` by the length its opcode gives. -/
theorem sequentialAdvanceIsTheLength : Obligations.SequentialAdvanceIsTheLength := by
  intro i s t _ hexec ht hop hb
  have hlen := instrLength_of_sequential hop
  exact ⟨hlen ▸ (exec_cases hexec).pc_of_sequential ht hop hb, hlen⟩

/-! ### The four outcomes (R121) -/

theorem coreStep_of_not_runnable {s : State} (h : s.status ≠ .runnable) : coreStep s = none := by
  unfold coreStep
  cases hs : s.status with
  | runnable => exact absurd hs h
  | halted => rw [step_halted hs]
  | faulted => rw [step_faulted hs]

theorem coreStep_of_blocks {s t : State} (h : step s = .next t) (hb : stepBlocks s = true) :
    coreStep s = some (.blocked, t) := by
  simp only [coreStep, h, hb, if_true]

/-- The outcome that the state after a step tells by its status, where the step was not Blocked. -/
def statusOutcome (t : State) : StepResult :=
  match t.status with
  | .runnable => .stepped
  | .halted => .halted
  | .faulted => .faulted t.fault

theorem coreStep_of_not_blocks {s t : State} (h : step s = .next t) (hb : ¬ stepBlocks s = true) :
    coreStep s = some (statusOutcome t, t) := by
  simp only [coreStep, h, if_neg hb, statusOutcome]
  cases t.status <;> rfl

/-- An instruction that leaves the core Runnable is no HALT. -/
theorem Effect.opcode_ne_halt {i : Instr} {s t : State} (h : Effect i s t) (ht : t.status = .runnable) :
    opcodeOf i ≠ 99 := by
  cases h with
  | fault | halted => simp at ht
  | _ => omega

theorem step_runnable_decodes {s t : State} (h : step s = .next t) (ht : t.status = .runnable) :
    ∃ i, decode (memGet s.mem s.pc) = .ok i ∧ opcodeOf i ≠ 99 := by
  obtain ⟨-, ⟨c, e, -, -, -, rfl⟩ | ⟨i, -, hd, he⟩⟩ := step_cases h
  · simp at ht
  · exact ⟨i, hd, he.opcode_ne_halt ht⟩

/-- Settles O40: the step is Blocked, or the status of the state it leads to tells the outcome. -/
theorem stepHasOneOfFourOutcomes : Obligations.StepHasOneOfFourOutcomes := by
  refine fun s hinv => ⟨coreStep_of_not_runnable, fun hrun => ?_⟩
  by_cases hb : stepBlocks s = true
  · have hstep := hinv.step_of_blocks hrun hb
    obtain ⟨-, i, hd, op, hin⟩ := stepBlocks_iff.mp hb
    exact ⟨.blocked, s, coreStep_of_blocks hstep hb, hstep,
      .inr (.inr (.inl ⟨rfl, rfl, (nextInput_eq_none.mp hin).2, i, hd, op⟩))⟩
  · obtain ⟨t, hstep⟩ := step_next hrun
    refine ⟨statusOutcome t, t, coreStep_of_not_blocks hstep hb, hstep, ?_⟩
    unfold statusOutcome
    cases ht : t.status with
    | runnable => exact .inl ⟨rfl, rfl, step_runnable_decodes hstep ht⟩
    | halted =>
      obtain ⟨m1, m2, m3, hd⟩ := onlyHaltHalts s t hstep ht
      exact .inr (.inl ⟨rfl, rfl, _, hd, rfl⟩)
    | faulted =>
      obtain ⟨c, hfault⟩ := step_faultTaken hstep ht
      exact .inr (.inr (.inr ⟨_, by rw [hfault.fault_eq], rfl, hfault.fault_eq⟩))

/-! ### The run (R130 to R134) -/

theorem run_of_no_step {s : State} (h : coreStep s = none) (n : Nat) : run n s = (restResult s, s) := by
  cases n with
  | zero => rfl
  | succ n => simp only [run, h]

/-- Within the invariant BlockedOnInput gives the IN at `pc` as the fetch sees it (10_state.md R31). -/
theorem StateInv.isInputAt_iff {s : State} (h : StateInv s) :
    isInputAt s = true ↔ ∃ i, decode (memGet s.mem s.pc) = .ok i ∧ opcodeOf i = 3 := by
  rw [Machine.isInputAt_iff, peek_eq_memGet h]

/-- Settles O55: Halted and Faulted have no step, and the first step of the third state is Blocked. -/
theorem runAtRest : Obligations.RunAtRest := by
  refine fun s n => ⟨fun hs => ?_, fun hs => ?_, fun hinv hrun hat hinq hcfg => ?_⟩
  · rw [run_of_no_step (coreStep_of_not_runnable (by simp [hs])), restResult, hs]
  · rw [run_of_no_step (coreStep_of_not_runnable (by simp [hs])), restResult, hs]
  · obtain ⟨i, hd, op⟩ := hinv.isInputAt_iff.mp hat
    have hb : stepBlocks s = true :=
      stepBlocks_iff.mpr ⟨hinv.pc_lt_capacity hd, i, hd, op, nextInput_eq_none.mpr ⟨hcfg, hinq⟩⟩
    simp only [run, coreStep_of_blocks (hinv.step_of_blocks hrun hb) hb]

/-- The result of a run and the state it leaves agree (R134). -/
def RunEnd (r : RunResult) (t : State) : Prop :=
  (r = .halted ∧ t.status = .halted) ∨
    (r = .blockedOnInput ∧ t.status = .runnable ∧ blockedOnInput t = true) ∨
    (∃ f, r = .faulted (some f) ∧ t.status = .faulted ∧ t.fault = some f) ∨
    (r = .outOfFuel ∧ t.status = .runnable)

theorem StateInv.runEnd_rest {s : State} (h : StateInv s) : RunEnd (restResult s) s := by
  unfold restResult
  cases hs : s.status with
  | runnable => exact .inr (.inr (.inr ⟨rfl, hs⟩))
  | halted => exact .inl ⟨rfl, hs⟩
  | faulted =>
    obtain ⟨f, hf⟩ := Option.ne_none_iff_exists'.mp (h.recorded.mp hs)
    exact .inr (.inr (.inl ⟨f, by rw [hf], hs, hf⟩))

theorem StateInv.runEnd_run {s : State} (h : StateInv s) (n : Nat) : RunEnd (run n s).1 (run n s).2 := by
  induction n generalizing s with
  | zero => exact h.runEnd_rest
  | succ n ih =>
    obtain ⟨hrest, houtcome⟩ := stepHasOneOfFourOutcomes s h
    by_cases hrun : s.status = .runnable
    · obtain ⟨r, t, hcore, hstep, hr⟩ := houtcome hrun
      simp only [run, hcore]
      obtain ⟨rfl, -⟩ | ⟨rfl, ht, -⟩ | ⟨rfl, rfl, hinq, hat⟩ | ⟨f, rfl, ht, hf⟩ := hr
      · exact ih (h.step hstep)
      · exact .inl ⟨rfl, ht⟩
      · exact .inr (.inl ⟨rfl, hrun, blockedOnInput_iff.mpr ⟨hrun, h.isInputAt_iff.mpr hat, hinq⟩⟩)
      · exact .inr (.inr (.inl ⟨f, rfl, ht, hf⟩))
    · rw [run_of_no_step (hrest hrun)]
      exact h.runEnd_rest

/-- Settles O56: by induction on the bound, each outcome of a step either ends the run as reported or goes on. -/
theorem runEndsAsReported : Obligations.RunEndsAsReported := by
  intro n s t r hinv hrun
  have hkept := run_keeps (P := StateInv) (fun _ _ h hstep => h.step hstep) n hinv
  have hend := hinv.runEnd_run n
  rw [hrun] at hkept hend
  exact ⟨hkept, hend⟩

/-! ### Resuming after a blocked step (R132) -/

/-- With an input available an IN completes with it, or takes a fault. -/
theorem Effect.of_input {i : Instr} {s t : State} {v : Word} {q : List Word} (h : Effect i s t)
    (op : opcodeOf i = 3) (hin : nextInput s = some (v, q)) :
    (t.status = s.status ∧ t.pc = s.pc + 2 ∧ t.inq = q) ∨ ∃ c, FaultTaken c s t := by
  cases h with
  | fault c e le => exact .inr ⟨c, e, le, rfl⟩
  | blocked op' empty => simp [hin] at empty
  | received d v' q' e op' input =>
    obtain ⟨-, rfl⟩ := Prod.mk.inj (Option.some.inj (hin.symm.trans input))
    exact .inl ⟨rfl, rfl, rfl⟩
  | _ => omega

/-- The queue that an IN leaves of one queued value: none of it, or all of it under a fixed value in force (R251). -/
theorem nextInput_singleton {s : State} {v : Word} (h : s.inq = [v]) :
    ∃ w, nextInput s = some (w, if alwaysInput s.cfg = none then [] else [v]) := by
  unfold nextInput
  cases alwaysInput s.cfg <;> simp [h]

/-- Settles O57: the same IN is fetched, an input is now available, and a fault takes none. -/
theorem resumeConsumesExactlyOne : Obligations.ResumeConsumesExactlyOne := by
  intro s v hinv hneeds
  obtain ⟨hrun, hat, hinq⟩ := blockedOnInput_iff.mp hneeds
  obtain ⟨i, hd, op⟩ := hinv.isInputAt_iff.mp hat
  have hpush : (pushInput v s).2 = { s with inq := [v] } := by
    rw [pushInput, unlessFaulted_acts (by simp [hrun]), hinq]
    rfl
  have hinv' : StateInv { s with inq := [v] } := hinv.withQueues s.rb [v] s.outq
  obtain ⟨w, hin⟩ := nextInput_singleton (s := { s with inq := [v] }) rfl
  obtain ⟨t, hexec, heffect⟩ := exec_effect i { s with inq := [v] }
  refine ⟨t, by rw [hpush, hinv'.step_eq_exec hrun hd, hexec], ?_⟩
  obtain ⟨ht, hpc, hq⟩ | ⟨c, e, -, rfl⟩ := heffect.of_input op hin
  · have ht : t.status = .runnable := ht.trans hrun
    refine ⟨.inl ⟨ht, hpc⟩, fun hcfg => ?_, fun halways hfixed => ?_⟩
    · rw [hq, if_pos ht, if_pos (alwaysInput_eq_none.mpr hcfg)]
    · rw [hq, if_neg (by simp [alwaysInput_eq_none, halways, hfixed])]
  · exact ⟨.inr ⟨rfl, rfl, rfl⟩, fun _ => rfl, fun _ _ => rfl⟩

end Sys2Proof.Machine

/-!
PROOFS of the family 41_arithmetic.md. First the checked result and what the formats F3 and F1R do with it, then the
frame of format F3 from its effects. Each obligation stands after its lemmas.
-/

namespace Sys2Proof.Machine

/-! ### A result in the word range (R150 to R152) -/

theorem checked64_of_eq {v : Int} {r : Word} (h : r.toInt = v) (s : State) : checked64 v s = .ok r s :=
  h ▸ checked64_of_toInt r s

/-- With its destination at `d` and a result, format F3 completes by writing the result there. -/
theorem threeOperand_writes {f : Word → Word → State → Res Word} {s : State} {m1 m2 m3 : Mode} {d : Int} {r : Word}
    (h : threeOperandFault s m1 m2 m3 = none) (hd : operandAddr s 3 m3 = some d)
    (hf : ∀ s', f (operandValue s 1 m1) (operandValue s 2 m2) s' = .ok r s') :
    threeOperand f m1 m2 m3 s =
      .next { s with mem := memSet s.mem d.toNat r, ext := extThree s m1 m2 m3, pc := s.pc + 4 } := by
  obtain ⟨d', hd', -, hexec⟩ := threeOperand_ok h hf
  obtain rfl : d = d' := Option.some.inj (hd.symm.trans hd')
  exact hexec

/-- Settles O11: the exact sum is the value of a word, so it passes the check and is written. -/
theorem addWritesExactSum : Obligations.AddWritesExactSum :=
  fun _ _ _ _ _ _ h hd hr => threeOperand_writes h hd (checked64_of_eq hr)

/-- Settles O12: the exact product is the value of a word, so it passes the check and is written. -/
theorem mulWritesExactProduct : Obligations.MulWritesExactProduct :=
  fun _ _ _ _ _ _ h hd hr => threeOperand_writes h hd (checked64_of_eq hr)

/-! ### A result outside it (R150, R206) -/

/-- A fault of format F1R's computation is taken after its parameter is resolved. -/
theorem oneOperand_raise {f : Word → State → Res Unit} {s : State} {m1 : Mode} {c : Cause}
    (h : readFault s 1 m1 = none)
    (hf : f (operandValue s 1 m1) { s with ext := extParam s 1 m1 s.ext } =
      .raise c { s with ext := extParam s 1 m1 s.ext }) :
    ∃ t, oneOperand f m1 s = .next t ∧ FaultTaken c s t := by
  rw [oneOperand_eq h, hf]
  exact finish_raise_taken rfl (le_extParam s 1 m1 s.ext)

theorem execAdjustBase_overflow {s : State} {m1 : Mode} (h : readFault s 1 m1 = none)
    (hv : ¬ InWord (s.rb.toInt + (operandValue s 1 m1).toInt)) :
    ∃ t, execAdjustBase m1 s = .next t ∧
      FaultTaken (.arithmeticOverflow (s.rb.toInt + (operandValue s 1 m1).toInt)) s t := by
  refine oneOperand_raise h ?_
  simp only [checked64_overflow hv, andThen_raise]

/-- Settles O23: with the parameters resolved, the check of the result is what raises. -/
theorem overflowFaultsWithExactResult : Obligations.OverflowFaultsWithExactResult := by
  refine fun m1 m2 m3 s => ⟨fun h hv => ?_, fun h hv => ?_, fun h hv => ?_⟩
  · exact threeOperand_raise h (checked64_overflow hv)
  · exact threeOperand_raise h (checked64_overflow hv)
  · exact execAdjustBase_overflow h hv

/-! ### The frame of format F3 (R127, R151, R152, R180, R181) -/

/-- ADD, MUL, LT and EQ write one word where parameter 3 addresses, or take a fault. -/
theorem Effect.of_threeOperand {i : Instr} {s t : State} (h : Effect i s t)
    (op : opcodeOf i = 1 ∨ opcodeOf i = 2 ∨ opcodeOf i = 7 ∨ opcodeOf i = 8) :
    (∃ d v e, operandAddr s 3 (modesOf i).2.2 = some d ∧ addrFault s d = none ∧ s.ext ≤ e ∧
      t = { s with mem := memSet s.mem d.toNat v, ext := e, pc := s.pc + 4 }) ∨ ∃ c, FaultTaken c s t := by
  cases h with
  | fault c e le => exact .inr ⟨c, e, le, rfl⟩
  | wrote d v e _ addr legal le => exact .inl ⟨d, v, e, addr, legal, le, rfl⟩
  | _ => omega

/-- A write at a legal exact address leaves every cell at another address alone. -/
theorem memGet_memSet_of_addr_ne {s : State} {d : Int} (legal : addrFault s d = none) {a : Nat} (h : d ≠ a)
    (m : Memory) (v : Word) : memGet (memSet m d.toNat v) a = memGet m a := by
  have hd := addrFault_none legal
  exact memGet_memSet_ne v (by omega)

/-- The four instructions of format F3 by their opcodes, with the mode of their parameter 3 (30_encoding.md R90). -/
theorem opcode_and_mode_of_threeOperand {i : Instr} {m1 m2 m3 : Mode}
    (h : i ∈ [Instr.add m1 m2 m3, Instr.mul m1 m2 m3, Instr.lessThan m1 m2 m3, Instr.equals m1 m2 m3]) :
    (opcodeOf i = 1 ∨ opcodeOf i = 2 ∨ opcodeOf i = 7 ∨ opcodeOf i = 8) ∧ (modesOf i).2.2 = m3 := by
  simp only [List.mem_cons, List.not_mem_nil, or_false] at h
  obtain rfl | rfl | rfl | rfl := h <;> simp [opcodeOf, modesOf]

/-- Settles O29: the one write is where parameter 3 addresses, and a taken fault writes nothing. -/
theorem threeOperandFrame : Obligations.ThreeOperandFrame := by
  intro m1 m2 m3 s t i hi hexec
  obtain ⟨op, rfl⟩ := opcode_and_mode_of_threeOperand hi
  obtain ⟨d, v, e, addr, legal, le, rfl⟩ | ⟨c, e, le, rfl⟩ := (exec_cases hexec).of_threeOperand op
  · refine ⟨rfl, rfl, rfl, rfl, le, fun a ha => ?_, .inl ⟨rfl, rfl⟩⟩
    have hne : d ≠ a := fun hd => ha (hd ▸ addr)
    exact memGet_memSet_of_addr_ne legal hne s.mem v
  · exact ⟨rfl, rfl, rfl, rfl, le, fun _ _ => rfl, .inr ⟨rfl, rfl, c, rfl, rfl⟩⟩

end Sys2Proof.Machine

/-!
PROOFS of the family 42_io.md. First what a completing IN and OUT do, then the frames of IN and of the instructions that
store nothing, field by field from the effects. Each obligation stands after its lemmas.
-/

namespace Sys2Proof.Machine

/-! ### IN and OUT complete (R160 to R162) -/

theorem extParam_of_addr {s : State} {k : Nat} {m : Mode} {d : Int} (h : operandAddr s k m = some d) (e : Nat) :
    extParam s k m e = extTouch (extTouch e (s.pc + k)) d.toNat := by
  simp only [extParam, h]

/-- With no fixed value in force the next input is the oldest queued value (R162, 70_reset_and_hazards.md R251). -/
theorem nextInput_of_queue {s : State} {v : Word} {q : List Word}
    (hcfg : s.cfg.fixedInputPolicy = .once ∨ s.cfg.fixedInput = none) (hinq : s.inq = v :: q) :
    nextInput s = some (v, q) := by
  simp only [nextInput, alwaysInput_eq_none.mpr hcfg, hinq]

/-- With an input available and its destination at `d`, IN writes the input there. -/
theorem execInput_ok {s : State} {m1 : Mode} {d : Int} {v : Word} {q : List Word} (hin : nextInput s = some (v, q))
    (h : writeFault s 1 m1 = none) (hd : operandAddr s 1 m1 = some d) :
    execInput m1 s =
      .next { s with mem := memSet s.mem d.toNat v, ext := extParam s 1 m1 s.ext, inq := q, pc := s.pc + 2 } := by
  obtain ⟨d', hd', -, hw⟩ := writeParam_ok h s.ext
  obtain rfl : d = d' := Option.some.inj (hd.symm.trans hd')
  have hw : writeParam 1 m1 s = _ := hw
  simp only [execInput, hin, hw, andThen_ok, finish_ok, store_eq, advance, extParam_of_addr hd]

/-- Settles O15: the input is the oldest queued value, and IN writes the input it receives. -/
theorem inputStoresOldestQueuedValue : Obligations.InputStoresOldestQueuedValue :=
  fun _ _ _ _ _ _ _ hcfg hinq h hd => execInput_ok (nextInput_of_queue hcfg hinq) h hd

/-- Settles O18: the resolved operand is given to the append, which cannot raise. -/
theorem outputAppendsValue : Obligations.OutputAppendsValue :=
  fun _ _ _ _ h => oneOperand_eq h

/-! ### The frames, field by field (R127) -/

theorem Effect.cfg_eq {i : Instr} {s t : State} (h : Effect i s t) : t.cfg = s.cfg := by
  cases h <;> rfl

/-- Only HALT and a taken fault write the status, and only a fault the record (R127). -/
theorem Effect.status_cases {i : Instr} {s t : State} (h : Effect i s t) :
    (t.status = s.status ∧ t.fault = s.fault) ∨ (opcodeOf i = 99 ∧ t.status = .halted ∧ t.fault = s.fault) ∨
      ∃ c, FaultTaken c s t := by
  cases h with
  | fault c e le => exact .inr (.inr ⟨c, e, le, rfl⟩)
  | halted op => exact .inr (.inl ⟨op, rfl, rfl⟩)
  | _ => exact .inl ⟨rfl, rfl⟩

/-- Only ADD, MUL, IN, LT and EQ store to memory (30_encoding.md R86). -/
theorem Effect.mem_eq_or {i : Instr} {s t : State} (h : Effect i s t) :
    t.mem = s.mem ∨ opcodeOf i ∈ [1, 2, 3, 7, 8] := by
  cases h with
  | wrote d v e op => exact .inr (by rcases op with op | op | op | op <;> simp [op])
  | received d v q e op => exact .inr (by simp [op])
  | _ => exact .inl rfl

/-- IN stores nowhere but where its parameter 1 addresses (R160). -/
theorem Effect.memGet_of_input {i : Instr} {s t : State} (h : Effect i s t) (op : opcodeOf i = 3) {a : Nat}
    (ha : operandAddr s 1 (modesOf i).1 ≠ some (a : Int)) : memGet t.mem a = memGet s.mem a := by
  cases h with
  | wrote => omega
  | received d v q e op' input addr legal =>
    have hne : d ≠ a := fun hd => ha (hd ▸ addr)
    exact memGet_memSet_of_addr_ne legal hne s.mem v
  | _ => rfl

/-- Settles O30: an IN is no ARB, no OUT and no HALT, and a taken fault leaves memory, `pc` and the queue alone. -/
theorem inputFrame : Obligations.InputFrame := by
  intro m1 m2 m3 s t hexec
  have he := exec_cases hexec
  have op : opcodeOf (.input m1 m2 m3) = 3 := rfl
  refine ⟨he.rb_eq_or.resolve_right (by omega), he.outq_eq_or.resolve_right fun ⟨_, _, op'⟩ => by omega, he.cfg_eq,
    he.ext_le, he.inq_eq_or.imp_right fun ⟨v, hq, _⟩ => ⟨v, hq⟩, fun a ha => he.memGet_of_input op ha, ?_⟩
  obtain hkept | ⟨op', -⟩ | ⟨c, e, -, rfl⟩ := he.status_cases
  · exact .inl hkept
  · omega
  · exact .inr ⟨rfl, rfl, rfl, c, rfl, rfl⟩

/-- The five instructions that store nothing, and which of them an opcode names. -/
theorem opcode_of_nonStoring {i : Instr} {m1 m2 m3 : Mode}
    (h : i ∈ [Instr.output m1 m2 m3, Instr.jumpIfTrue m1 m2 m3, Instr.jumpIfFalse m1 m2 m3,
      Instr.adjustBase m1 m2 m3, Instr.halt m1 m2 m3]) :
    opcodeOf i ∉ [1, 2, 3, 7, 8] ∧ (opcodeOf i = 4 → i = .output m1 m2 m3) ∧
      (opcodeOf i = 9 → i = .adjustBase m1 m2 m3) ∧ (opcodeOf i = 99 → i = .halt m1 m2 m3) := by
  simp only [List.mem_cons, List.not_mem_nil, or_false] at h
  obtain rfl | rfl | rfl | rfl | rfl := h <;> simp [opcodeOf]

/-- Settles O31: none of the five stores or receives, and the opcode names the one that changes each other field. -/
theorem nonStoringFrame : Obligations.NonStoringFrame := by
  intro m1 m2 m3 s t i hi hexec
  have he := exec_cases hexec
  obtain ⟨hstore, hout, harb, hhalt⟩ := opcode_of_nonStoring hi
  have hmem : t.mem = s.mem := he.mem_eq_or.resolve_right hstore
  have hinq : t.inq = s.inq := he.inq_eq_or.resolve_right fun ⟨_, _, op⟩ => hstore (by simp [op])
  refine ⟨fun a => by rw [hmem], hinq, he.cfg_eq, he.ext_le,
    he.outq_eq_or.imp_right fun ⟨v, hq, op⟩ => ⟨hout op, v, hq⟩, he.rb_eq_or.imp_right harb, ?_⟩
  obtain hkept | ⟨op, hstopped⟩ | ⟨c, e, -, rfl⟩ := he.status_cases
  · exact .inl hkept
  · exact .inr (.inl ⟨hhalt op, hstopped⟩)
  · exact .inr (.inr ⟨rfl, rfl, rfl, c, rfl, rfl⟩)

end Sys2Proof.Machine

/-!
PROOFS of the family 43_jumps.md. First where a jump with resolved operands goes, then the step that follows a taken
one. Each obligation stands after its lemmas.
-/

namespace Sys2Proof.Machine

/-! ### The three ways of a jump with resolved operands (R170 to R172) -/

theorem conditionalJump_not_taken {taken : Word → Bool} {s : State} {m1 m2 : Mode}
    (h : twoOperandFault s m1 m2 = none) (ht : ¬ taken (operandValue s 1 m1) = true) :
    conditionalJump taken m1 m2 s = .next { s with pc := s.pc + 3, ext := extTwo s m1 m2 } := by
  rw [conditionalJump_eq h, if_neg ht]

theorem conditionalJump_taken {taken : Word → Bool} {s : State} {m1 m2 : Mode}
    (h : twoOperandFault s m1 m2 = none) (ht : taken (operandValue s 1 m1) = true)
    (hv : 0 ≤ (operandValue s 2 m2).toInt) :
    conditionalJump taken m1 m2 s =
      .next { s with pc := (operandValue s 2 m2).toInt.toNat, ext := extTwo s m1 m2 } := by
  rw [conditionalJump_eq h, if_pos ht, if_neg (Int.not_lt.mpr hv)]

theorem conditionalJump_taken_of_neg {taken : Word → Bool} {s : State} {m1 m2 : Mode}
    (h : twoOperandFault s m1 m2 = none) (ht : taken (operandValue s 1 m1) = true)
    (hv : (operandValue s 2 m2).toInt < 0) :
    conditionalJump taken m1 m2 s =
      .next { takeFault .core (.negativeAddress (operandValue s 2 m2).toInt) s with ext := extTwo s m1 m2 } := by
  rw [conditionalJump_eq h, if_pos ht, if_pos hv]

/-- Settles O19: JT's test holds of every word but 0. -/
theorem jumpIfTrueGoesOrFallsThrough : Obligations.JumpIfTrueGoesOrFallsThrough :=
  fun _ _ _ _ h =>
    ⟨fun hzero => conditionalJump_not_taken h fun ht => (wordIsNonZero_iff _).mp ht hzero,
      fun hne hv => conditionalJump_taken h ((wordIsNonZero_iff _).mpr hne) hv⟩

/-- Settles O20: JF's test holds of 0 alone. -/
theorem jumpIfFalseGoesOrFallsThrough : Obligations.JumpIfFalseGoesOrFallsThrough :=
  fun _ _ _ _ h =>
    ⟨fun hne => conditionalJump_not_taken h fun ht => hne ((wordIsZero_iff _).mp ht),
      fun hzero hv => conditionalJump_taken h ((wordIsZero_iff _).mpr hzero) hv⟩

/-! ### The step after a taken jump (R172) -/

/-- JT on a word that is not 0 and JF on 0 are the two jumps that are taken (R170, R171). -/
theorem exec_eq_taken_jump {i : Instr} {m1 m2 m3 : Mode} {s : State}
    (h : (i = .jumpIfTrue m1 m2 m3 ∧ operandValue s 1 m1 ≠ 0) ∨
      (i = .jumpIfFalse m1 m2 m3 ∧ operandValue s 1 m1 = 0)) :
    ∃ taken, taken (operandValue s 1 m1) = true ∧ exec i s = conditionalJump taken m1 m2 s := by
  obtain ⟨rfl, hne⟩ | ⟨rfl, hzero⟩ := h
  · exact ⟨wordIsNonZero, (wordIsNonZero_iff _).mpr hne, rfl⟩
  · exact ⟨wordIsZero, (wordIsZero_iff _).mpr hzero, rfl⟩

theorem le_extTwo (s : State) (m1 m2 : Mode) : s.ext ≤ extTwo s m1 m2 :=
  Nat.le_trans (le_extParam s 1 m1 s.ext) (le_extParam s 2 m2 _)

/-- An access at or beyond the extent grows memory up to and including its cell (20_memory.md R53). -/
theorem extTouch_of_le {e a : Nat} (h : e ≤ a) : extTouch e a = a + 1 := if_pos h

/-- At or beyond the extent the fetch grows memory over `pc`, where a cell that holds 0 does not decode (R136). -/
theorem step_of_zero_beyond_extent {s : State} (hrun : s.status = .runnable) (hext : s.ext ≤ s.pc)
    (hpc : s.pc < s.cfg.memCapacity) (hzero : memGet s.mem s.pc = 0) :
    step s = .next { takeFault .core (.invalidOpcode 0) s with ext := s.pc + 1 } := by
  have hd : decode (memGet s.mem s.pc) = .error (.invalidOpcode 0) := by rw [hzero, decode_zero]
  rw [step_of_decode_error hrun hpc hd, extTouch_of_le hext]

/-- Settles O27: a jump to a negative target raises before `pc` is written; any other target is judged by the next step,
which finds no cell beyond the capacity and the word 0 beyond the extent. -/
theorem takenJumpTargets : Obligations.TakenJumpTargets := by
  intro m1 m2 m3 s i hjump h hrun
  obtain ⟨taken, ht, hexec⟩ := exec_eq_taken_jump hjump
  rw [hexec]
  refine ⟨fun hv => ?_, fun hv => ?_⟩
  · exact ⟨_, conditionalJump_taken_of_neg h ht hv, ⟨_, le_extTwo s m1 m2, rfl⟩, rfl⟩
  · refine ⟨_, conditionalJump_taken h ht hv, Int.toNat_of_nonneg hv, hrun, fun hpc => step_beyond hrun hpc,
      fun hinv hext hpc => ?_⟩
    have hzero := hinv.memGet_eq_zero (Nat.le_trans (le_extTwo s m1 m2) hext)
    exact step_of_zero_beyond_extent hrun hext hpc hzero

end Sys2Proof.Machine

/-!
PROOFS of the family 44_compare.md. LT and EQ are format F3 with a computation that cannot raise, so what remains of
each is the value of its result word. Each obligation stands after its lemmas.
-/

namespace Sys2Proof.Machine

/-! ### The result word of a comparison (R180, R181) -/

/-- Two words have the same signed value only when they are the same word, so EQ may compare either. -/
theorem boolWord_toInt_eq (v w : Word) : boolWord (v.toInt = w.toInt) = if v = w then 1 else 0 := by
  rw [boolWord_decide]
  exact if_congr BitVec.toInt_inj rfl rfl

/-- Settles O13: LT's result is the word of the signed comparison, and format F3 writes it. -/
theorem lessThanWritesOneOrZero : Obligations.LessThanWritesOneOrZero :=
  fun _ _ _ _ _ h hd => threeOperand_writes h hd fun s' => congrArg (Res.ok · s') (boolWord_decide _)

/-- Settles O14: EQ's result is the word of the equality of signed values, which is that of the words. -/
theorem equalsWritesOneOrZero : Obligations.EqualsWritesOneOrZero :=
  fun _ _ _ _ _ h hd => threeOperand_writes h hd fun s' => congrArg (Res.ok · s') (boolWord_toInt_eq _ _)

end Sys2Proof.Machine

/-!
PROOFS of the family 45_relbase_halt.md. ARB is format F1R with the checked sum of the old base and its operand; HALT
resolves nothing, and what follows it is that a Halted core has no step.
-/

namespace Sys2Proof.Machine

/-- With its operand resolved and a sum in the word range, ARB writes the sum to the base (R190). -/
theorem execAdjustBase_ok {s : State} {m1 : Mode} {r : Word} (h : readFault s 1 m1 = none)
    (hr : r.toInt = s.rb.toInt + (operandValue s 1 m1).toInt) :
    execAdjustBase m1 s = .next { s with rb := r, ext := extParam s 1 m1 s.ext, pc := s.pc + 2 } := by
  have hsum := checked64_of_eq hr { s with ext := extParam s 1 m1 s.ext }
  rw [execAdjustBase, oneOperand_eq h, hsum]
  rfl

/-- Settles O21: the operand is resolved with the old base, and the exact sum is the value of a word. -/
theorem adjustBaseAddsExactly : Obligations.AdjustBaseAddsExactly :=
  fun _ _ _ _ _ h hr => execAdjustBase_ok h hr

/-- Settles O22: HALT writes the status and advances `pc`, and in the status Halted there is no step. -/
theorem haltCompletesAndStops : Obligations.HaltCompletesAndStops :=
  fun _ _ _ s => ⟨s.pc + 1, { s with status := .halted, pc := s.pc + 1 }, rfl, rfl, step_halted rfl⟩

end Sys2Proof.Machine

/-!
PROOFS of the family 60_exceptions.md. First the fault priority of each operand shape, then which steps can overflow at
all, then the host port. Each obligation stands after its lemmas.
-/

namespace Sys2Proof.Machine

/-! ### The first parameter fault is the one taken (R208) -/

/-- ADD, MUL, LT and EQ differ in their computation only (30_encoding.md R90). -/
theorem exec_eq_threeOperand {i : Instr} {m1 m2 m3 : Mode} {s : State}
    (h : i ∈ [Instr.add m1 m2 m3, Instr.mul m1 m2 m3, Instr.lessThan m1 m2 m3, Instr.equals m1 m2 m3]) :
    ∃ f, exec i s = threeOperand f m1 m2 m3 s := by
  simp only [List.mem_cons, List.not_mem_nil, or_false] at h
  obtain rfl | rfl | rfl | rfl := h <;> exact ⟨_, rfl⟩

theorem exec_eq_oneOperand {i : Instr} {m1 m2 m3 : Mode} {s : State}
    (h : i ∈ [Instr.output m1 m2 m3, Instr.adjustBase m1 m2 m3]) : ∃ f, exec i s = oneOperand f m1 s := by
  simp only [List.mem_cons, List.not_mem_nil, or_false] at h
  obtain rfl | rfl := h <;> exact ⟨_, rfl⟩

theorem exec_eq_conditionalJump {i : Instr} {m1 m2 m3 : Mode} {s : State}
    (h : i ∈ [Instr.jumpIfTrue m1 m2 m3, Instr.jumpIfFalse m1 m2 m3]) :
    ∃ taken, exec i s = conditionalJump taken m1 m2 s := by
  simp only [List.mem_cons, List.not_mem_nil, or_false] at h
  obtain rfl | rfl := h <;> exact ⟨_, rfl⟩

/-- With an input available, the fault of IN's destination is taken before the queue is touched (R160). -/
theorem execInput_fault {s : State} {m1 : Mode} {c : Cause} (hin : nextInput s ≠ none)
    (h : writeFault s 1 m1 = some c) : ∃ t, execInput m1 s = .next t ∧ FaultTaken c s t := by
  obtain ⟨p, hp⟩ := Option.ne_none_iff_exists'.mp hin
  obtain ⟨e, le, hw⟩ := writeParam_raise h s.ext
  have hw : writeParam 1 m1 s = _ := hw
  simp only [execInput, hp, hw, andThen_raise]
  exact finish_raise_taken rfl le

/-- An input is available exactly when the queue holds a value or a fixed value is in force (R251). -/
theorem nextInput_ne_none {s : State} :
    nextInput s ≠ none ↔ s.inq ≠ [] ∨ (s.cfg.fixedInputPolicy = .always ∧ s.cfg.fixedInput ≠ none) := by
  have hpolicy : ¬ s.cfg.fixedInputPolicy = .once ↔ s.cfg.fixedInputPolicy = .always := by
    cases s.cfg.fixedInputPolicy <;> simp
  rw [Ne, nextInput_eq_none, not_and_or, not_or, hpolicy, or_comm]

/-- Settles O25: format F3 takes its first parameter fault whatever it computes. -/
theorem threeOperandFaultPriority : Obligations.ThreeOperandFaultPriority := by
  intro m1 m2 m3 s c h i hi
  obtain ⟨f, hexec⟩ := exec_eq_threeOperand hi
  rw [hexec]
  exact threeOperand_fault h

/-- Settles O26: formats F1R and F2R take their first parameter fault whatever they do with the operands, and IN that of
its destination once an input is available. -/
theorem otherOperandFaultPriority : Obligations.OtherOperandFaultPriority := by
  refine fun m1 m2 m3 s c => ⟨fun h i hi => ?_, fun h i hi => ?_, fun h hin => ?_⟩
  · obtain ⟨f, hexec⟩ := exec_eq_oneOperand hi
    rw [hexec]
    exact oneOperand_fault h
  · obtain ⟨taken, hexec⟩ := exec_eq_conditionalJump hi
    rw [hexec]
    exact conditionalJump_fault h
  · exact execInput_fault (nextInput_ne_none.mpr hin) h

/-! ### Where ArithmeticOverflow cannot come from (R206) -/

theorem addrFault_ne_overflow (s : State) (a v : Int) : addrFault s a ≠ some (.arithmeticOverflow v) := by
  intro h
  obtain ⟨horigin, -⟩ := addrFault_legal h .host
  cases horigin

theorem readFault_ne_overflow (s : State) (k : Nat) (m : Mode) (v : Int) :
    readFault s k m ≠ some (.arithmeticOverflow v) := by
  intro h
  obtain ⟨horigin, -⟩ := readFault_legal h .host
  cases horigin

theorem writeFault_ne_overflow (s : State) (k : Nat) (m : Mode) (v : Int) :
    writeFault s k m ≠ some (.arithmeticOverflow v) := by
  intro h
  unfold writeFault at h
  split at h
  · rename_i hf
    exact addrFault_ne_overflow _ _ _ (hf.trans h)
  · split at h
    · cases h
    · exact addrFault_ne_overflow _ _ _ h

theorem twoOperandFault_ne_overflow (s : State) (m1 m2 : Mode) (v : Int) :
    twoOperandFault s m1 m2 ≠ some (.arithmeticOverflow v) := by
  intro h
  unfold twoOperandFault at h
  split at h
  · rename_i h1
    exact readFault_ne_overflow _ _ _ _ (h1.trans h)
  · exact readFault_ne_overflow _ _ _ _ h

theorem threeOperandFault_ne_overflow (s : State) (m1 m2 m3 : Mode) (v : Int) :
    threeOperandFault s m1 m2 m3 ≠ some (.arithmeticOverflow v) := by
  intro h
  unfold threeOperandFault at h
  split at h
  · rename_i h1
    exact readFault_ne_overflow _ _ _ _ (h1.trans h)
  · split at h
    · rename_i h2
      exact readFault_ne_overflow _ _ _ _ (h2.trans h)
    · exact writeFault_ne_overflow _ _ _ _ h

/-- Each check of the decoder reports a fault of its own (30_encoding.md R87). -/
theorem decode_ne_overflow (w : Word) (v : Int) : decode w ≠ .error (.arithmeticOverflow v) := by
  intro h
  have hchecks := decodeFollowsCheckOrder w
  rw [h] at hchecks
  split_ifs at hchecks <;> cases hchecks

/-- The outcome is a state whose record is that of `s`, or one where a fault other than ArithmeticOverflow was taken. -/
def NoOverflow (s : State) (o : Host.Outcome State Fault Refusal) : Prop :=
  ∃ t, o = .next t ∧ (t.fault = s.fault ∨ ∃ c, FaultTaken c s t ∧ ∀ v, c ≠ .arithmeticOverflow v)

theorem NoOverflow.of_taken {s : State} {o : Host.Outcome State Fault Refusal} {c : Cause}
    (h : ∃ t, o = .next t ∧ FaultTaken c s t) (hc : ∀ v, c ≠ .arithmeticOverflow v) : NoOverflow s o := by
  obtain ⟨t, ht, htaken⟩ := h
  exact ⟨t, ht, .inr ⟨c, htaken, hc⟩⟩

theorem noOverflow_threeOperand {f : Word → Word → State → Res Word}
    (hf : ∀ v1 v2, ∃ r, ∀ s', f v1 v2 s' = .ok r s') (m1 m2 m3 : Mode) (s : State) :
    NoOverflow s (threeOperand f m1 m2 m3 s) := by
  cases h : threeOperandFault s m1 m2 m3 with
  | some c =>
    exact .of_taken (threeOperand_fault h) fun v hv => threeOperandFault_ne_overflow s m1 m2 m3 v (hv ▸ h)
  | none =>
    obtain ⟨r, hr⟩ := hf (operandValue s 1 m1) (operandValue s 2 m2)
    obtain ⟨d, -, -, hexec⟩ := threeOperand_ok h hr
    exact ⟨_, hexec, .inl rfl⟩

theorem noOverflow_conditionalJump (taken : Word → Bool) (m1 m2 : Mode) (s : State) :
    NoOverflow s (conditionalJump taken m1 m2 s) := by
  cases h : twoOperandFault s m1 m2 with
  | some c =>
    exact .of_taken (conditionalJump_fault h) fun v hv => twoOperandFault_ne_overflow s m1 m2 v (hv ▸ h)
  | none =>
    rw [conditionalJump_eq h]
    split
    · split
      · exact .of_taken ⟨_, rfl, _, le_extTwo s m1 m2, rfl⟩ (by simp)
      · exact ⟨_, rfl, .inl rfl⟩
    · exact ⟨_, rfl, .inl rfl⟩

theorem noOverflow_execOutput (m1 : Mode) (s : State) : NoOverflow s (execOutput m1 s) := by
  cases h : readFault s 1 m1 with
  | some c => exact .of_taken (oneOperand_fault h) fun v hv => readFault_ne_overflow s 1 m1 v (hv ▸ h)
  | none => exact ⟨_, oneOperand_eq h, .inl rfl⟩

theorem noOverflow_execInput (m1 : Mode) (s : State) : NoOverflow s (execInput m1 s) := by
  cases hin : nextInput s with
  | none => exact ⟨s, by simp only [execInput, hin], .inl rfl⟩
  | some p =>
    cases h : writeFault s 1 m1 with
    | some c =>
      exact .of_taken (execInput_fault (by simp [hin]) h) fun v hv => writeFault_ne_overflow s 1 m1 v (hv ▸ h)
    | none =>
      obtain ⟨d, hd, -⟩ := writeParam_ok h s.ext
      exact ⟨_, execInput_ok hin h hd, .inl rfl⟩

/-- Only ADD, MUL and ARB check a result (41_arithmetic.md R150, 45_relbase_halt.md R190). -/
theorem noOverflow_exec {i : Instr} (h : opcodeOf i ∉ [1, 2, 9]) (s : State) : NoOverflow s (exec i s) := by
  cases i with
  | add | mul | adjustBase => simp [opcodeOf] at h
  | lessThan m1 m2 m3 | equals m1 m2 m3 => exact noOverflow_threeOperand (fun _ _ => ⟨_, fun _ => rfl⟩) m1 m2 m3 s
  | jumpIfTrue m1 m2 m3 | jumpIfFalse m1 m2 m3 => exact noOverflow_conditionalJump _ m1 m2 s
  | output m1 m2 m3 => exact noOverflow_execOutput m1 s
  | input m1 m2 m3 => exact noOverflow_execInput m1 s
  | halt => exact ⟨_, rfl, .inl rfl⟩

theorem StateInv.noOverflow_step {s : State} (h : StateInv s) (hrun : s.status = .runnable)
    (hop : ∀ i, decode (memGet s.mem s.pc) = .ok i → opcodeOf i ∉ [1, 2, 9]) : NoOverflow s (Machine.step s) := by
  by_cases hpc : s.pc < s.cfg.memCapacity
  · cases hd : decode (memGet s.mem s.pc) with
    | ok i =>
      rw [h.step_eq_exec hrun hd]
      exact noOverflow_exec (hop i hd) s
    | error c =>
      exact .of_taken ⟨_, step_of_decode_error hrun hpc hd, _, le_extTouch _ _, rfl⟩ fun v hv =>
        decode_ne_overflow _ v (hv ▸ hd)
  · exact .of_taken ⟨_, step_beyond hrun (Nat.le_of_not_lt hpc), s.ext, Nat.le_refl _, rfl⟩ (by simp)

/-- Settles O24: the record after the step is legal, so its exact result is no word; and a step of any other
instruction, or one that fetches none, keeps the record or takes another fault. -/
theorem onlyArithmeticOverflows : Obligations.OnlyArithmeticOverflows := by
  intro s t r v hinv hstep hr hcause
  obtain ⟨hrun, -⟩ := step_cases hstep
  obtain ⟨-, hlegal⟩ := (hinv.step hstep).record r hr
  rw [hcause] at hlegal
  refine ⟨hlegal.2, ?_⟩
  by_contra hno
  obtain ⟨t', ht', hkept | ⟨c, htaken, hc⟩⟩ := hinv.noOverflow_step hrun fun i hd op => hno ⟨i, hd, op⟩
  all_goals obtain rfl : t = t' := Host.Outcome.next.inj (hstep.symm.trans ht')
  · rw [hr, hinv.fault_eq_none (by simp [hrun])] at hkept
    cases hkept
  · obtain rfl := Option.some.inj (hr.symm.trans htaken.fault_eq)
    exact hc v hcause

/-! ### The invariant over the host port (R215 to R226) -/

theorem StateInv.hostEffect {s t : State} (h : StateInv s) (he : HostEffect s t) : StateInv t := by
  have grown : ∀ {a : Int}, addrFault s a = none → StateInv { s with ext := extTouch s.ext a.toNat } := fun legal =>
    h.grown (le_extTouch _ _) fun hcap => extTouch_le hcap (addrFault_bound legal)
  cases he with
  | refused => exact h
  | fault c acts legal => exact h.faulted legal
  | pushed v => exact h.withQueues s.rb (s.inq ++ [v]) s.outq
  | popped v q => exact h.withQueues s.rb s.inq q
  | grown a acts legal => exact grown legal
  | written a v acts legal => exact (grown legal).written (lt_extTouch _ _) v

/-- Settles O44: every host effect keeps the invariant, a run is steps, and `duplicate` answers the state twice. -/
theorem hostOperationsKeepInvariant : Obligations.HostOperationsKeepInvariant := fun s a v n h =>
  ⟨h.hostEffect (hostEffect_pushInput v s), h.hostEffect (hostEffect_popOutput s),
    h.hostEffect (hostEffect_getMemory a s), h.hostEffect (hostEffect_setMemory a v s),
    run_keeps (fun _ _ hinv hstep => hinv.step hstep) n h, h, h⟩

/-! ### `needs_input` (R220) -/

theorem needsInput_iff {s : State} :
    needsInput s = true ↔
      s.status = .runnable ∧ s.inq = [] ∧ ∃ i, decode (peek s.pc s) = .ok i ∧ opcodeOf i = 3 := by
  unfold needsInput
  rw [blockedOnInput_iff, isInputAt_iff, and_comm (a := s.inq = [])]

/-- With no fixed value in force, BlockedOnInput is that the step is Blocked (40_execution_cycle.md R125). -/
theorem StateInv.needsInput_iff_blocks {s : State} (h : StateInv s)
    (hcfg : s.cfg.fixedInputPolicy = .once ∨ s.cfg.fixedInput = none) :
    needsInput s = true ↔ s.status = .runnable ∧ stepBlocks s = true := by
  rw [needsInput_iff, stepBlocks_iff, peek_eq_memGet h]
  constructor
  · rintro ⟨hrun, hinq, i, hd, op⟩
    exact ⟨hrun, h.pc_lt_capacity hd, i, hd, op, nextInput_eq_none.mpr ⟨hcfg, hinq⟩⟩
  · rintro ⟨hrun, -, i, hd, op, hin⟩
    exact ⟨hrun, (nextInput_eq_none.mp hin).2, i, hd, op⟩

/-- A step that has an input available is not Blocked. -/
theorem stepBlocks_of_input {s : State} (hin : nextInput s ≠ none) : stepBlocks s = false := by
  rw [← Bool.not_eq_true, stepBlocks_iff]
  rintro ⟨-, i, -, -, hnone⟩
  exact hin hnone

/-- Settles O54: both say that the word at `pc` is an IN with no value queued; and a fixed value in force is an
input. -/
theorem needsInputIffBlocked : Obligations.NeedsInputIffBlocked := by
  refine fun s h => ⟨needsInput_iff, fun hcfg => ?_, fun hpolicy hfixed => ?_⟩
  · have hiff := h.needsInput_iff_blocks hcfg
    refine ⟨hiff, fun hneeds => ?_⟩
    obtain ⟨hrun, hb⟩ := hiff.mp hneeds
    exact h.step_of_blocks hrun hb
  · exact stepBlocks_of_input (nextInput_ne_none.mpr (.inr ⟨hpolicy, hfixed⟩))

/-! ### The mutating operations outside Faulted (R217, R218, R222, R223) -/

/-- Settles O49: outside Faulted `push_input` acts, and a Halted core is at rest. -/
theorem pushInputAppends : Obligations.PushInputAppends := by
  intro v s hs
  have hpush : pushInput v s = (.value (), { s with inq := s.inq ++ [v] }) := unlessFaulted_acts hs _
  refine ⟨hpush, fun hhalted n => ?_⟩
  rw [hpush]
  obtain ⟨hrest, -⟩ := runAtRest { s with inq := s.inq ++ [v] } n
  exact hrest hhalted

/-- Settles O50: outside Faulted `pop_output` acts, by the two forms of the queue. -/
theorem popOutputTakesTheOldest : Obligations.PopOutputTakesTheOldest := by
  refine fun s hs => ⟨fun v q hq => ?_, fun hq => ?_⟩
  · rw [popOutput, unlessFaulted_acts hs, hq]
  · rw [popOutput, unlessFaulted_acts hs, hq, hostReply_raise, takeFault_fault]

/-- Settles O51: outside Faulted both operations act, and the check of the address decides what they answer. -/
theorem hostMemoryAccess : Obligations.HostMemoryAccess := by
  intro a v s hs
  have hget : getMemory a s = hostReply (memRead a.toInt s) := unlessFaulted_acts hs _
  have hset : setMemory a v s = hostReply (memWrite a.toInt v s) := unlessFaulted_acts hs _
  rw [hget, hset]
  refine ⟨fun h0 hlt => ?_, fun c hc => ?_⟩
  · have hf := addrFault_of_existing h0 hlt
    rw [memRead_ok hf, memWrite_ok hf]
    exact ⟨rfl, rfl⟩
  · rw [memRead_raise hc, memWrite_raise hc]
    exact ⟨rfl, rfl⟩

/-! ### A fault that is returned is the recorded one (R226) -/

/-- If a fault is returned, the state left is Faulted with that record. -/
def ReturnsRecorded {α : Type} (p : Reply α × State) : Prop :=
  ∀ f, p.1 = .fault f → p.2.status = .faulted ∧ p.2.fault = f

theorem returnsRecorded_hostReply {α : Type} (r : Res α) : ReturnsRecorded (hostReply r) := by
  intro f hf
  cases r with
  | ok a s => cases hf
  | raise c s => exact ⟨rfl, Reply.fault.inj hf⟩

theorem ReturnsRecorded.unlessFaulted {α : Type} {s : State} {op : State → Reply α × State}
    (h : ReturnsRecorded (op s)) : ReturnsRecorded (unlessFaulted s op) := by
  by_cases hs : s.status = .faulted
  · rw [unlessFaulted_refuses hs]
    exact fun f hf => ⟨hs, Reply.fault.inj hf⟩
  · rwa [unlessFaulted_acts hs]

theorem returnsRecorded_popOutput (s : State) : ReturnsRecorded (popOutput s) := by
  refine .unlessFaulted ?_
  cases s.outq with
  | nil => exact returnsRecorded_hostReply _
  | cons v q => exact fun f hf => nomatch hf

/-- Settles O52: in Faulted every operation is refused and a run is at rest; elsewhere what is returned was taken. -/
theorem faultedInstanceRefuses : Obligations.FaultedInstanceRefuses := by
  intro s a v n
  obtain ⟨-, hrest, -⟩ := runAtRest s n
  refine ⟨fun hs => ?_, returnsRecorded_popOutput s, (returnsRecorded_hostReply _).unlessFaulted,
    (returnsRecorded_hostReply _).unlessFaulted⟩
  exact ⟨unlessFaulted_refuses hs _, unlessFaulted_refuses hs _, unlessFaulted_refuses hs _,
    unlessFaulted_refuses hs _, hrest hs⟩

end Sys2Proof.Machine

/-!
PROOFS of the family 70_reset_and_hazards.md. First the input a fixed value gives, then when construction gives an
instance, and which. Each obligation stands after its lemmas.
-/

namespace Sys2Proof.Machine

/-! ### IN under the policy `always` (R251) -/

/-- With a fixed value in force the next input is that value, and the queue is left alone. -/
theorem nextInput_of_fixed {s : State} {v : Word} (hpolicy : s.cfg.fixedInputPolicy = .always)
    (hfixed : s.cfg.fixedInput = some v) : nextInput s = some (v, s.inq) := by
  simp only [nextInput, alwaysInput, hpolicy, hfixed]

/-- Settles O16: the input is the fixed value, and IN writes the input it receives. -/
theorem inputStoresFixedValueUnderAlways : Obligations.InputStoresFixedValueUnderAlways :=
  fun _ _ _ _ _ _ hpolicy hfixed h hd => execInput_ok (nextInput_of_fixed hpolicy hfixed) h hd

/-! ### When construction gives an instance (R250, R252) -/

/-- Construction refuses exactly a program that does not fit and a capacity that is no value of its parameter. -/
theorem construct_eq_none {cfg : Config} {p : List Word} :
    construct cfg p = none ↔ cfg.memCapacity < p.length ∨ maxCapacity < cfg.memCapacity := by
  rw [construct, ite_eq_right_iff, ← Nat.not_le, ← Nat.not_le, ← not_and_or]
  exact imp_congr_right fun _ => ⟨nofun, False.elim⟩

/-- An instance is constructed from a program that fits a legal capacity, in one state only. -/
theorem construct_cases {cfg : Config} {p : List Word} {s : State} (h : construct cfg p = some s) :
    p.length ≤ cfg.memCapacity ∧ cfg.memCapacity ≤ maxCapacity ∧
      s = { State.reset with cfg := cfg, mem := programCells 0 p, ext := p.length, inq := initialInput cfg } := by
  obtain ⟨⟨hlen, hcap⟩, hs⟩ := Option.ite_none_right_eq_some.mp h
  exact ⟨hlen, hcap, (Option.some.inj hs).symm⟩

/-- The state constructed from a program that fits is within the invariant. -/
theorem stateInv_constructed {cfg : Config} {p : List Word} (hlen : p.length ≤ cfg.memCapacity)
    (hcap : cfg.memCapacity ≤ maxCapacity) (inq : List Word) :
    StateInv { State.reset with cfg := cfg, mem := programCells 0 p, ext := p.length, inq := inq } :=
  { resetMeetsInvariant with
    capacity := hcap
    canonical := wf_programCells 0 p
    listed := fun c hc => by simpa using (listed_programCells hc).2
    extent := hlen
    record := fun r hr => by simp [State.reset] at hr }

/-- Settles O43: the program's cells are canonical and lie below its length, and all else is as at reset. -/
theorem constructionMeetsInvariant : Obligations.ConstructionMeetsInvariant := by
  intro cfg p s h
  obtain ⟨hlen, hcap, rfl⟩ := construct_cases h
  exact stateInv_constructed hlen hcap _

/-- Settles O48: the program does not fit, one of the two reasons to refuse. -/
theorem longProgramIsRefused : Obligations.LongProgramIsRefused :=
  fun _ _ hlong => construct_eq_none.mpr (.inl hlong)

end Sys2Proof.Machine
